-- ==== Sys2Proof/Word.lean ====
section
/-! DEFINITION. The machine's word: a signed 64-bit integer held as two's complement (00_scope.md R6). -/

namespace Sys2Proof

/-- A memory cell, a program value, `ip` or `rb`: signed, 64 bits (R6). Its value is `BitVec.toInt`. -/
abbrev Word := BitVec 64

/-- `wrap64(x)`: the one Word that equals `x` modulo 2^64 (R6). -/
def wrap64 (x : Int) : Word := BitVec.ofInt 64 x

end Sys2Proof
end

