-- ==== Sys2Proof/Syntax.lean ====
section
/-! DEFINITION. The instructions as syntax: one constructor per row of spec/opcode_table.json (30_encoding.md R65). -/

namespace Sys2Proof

/-- Operand modes, mode digits 0, 1, 2 (R64). -/
inductive Mode
  | address | immediate | relative
  deriving DecidableEq, Repr

/-- A decoded operand: its mode and its raw value, a full Word taken verbatim (R66). -/
structure Operand where
  mode : Mode
  raw  : Word
  deriving DecidableEq, Repr

/-- The ten instructions (R65). Operands are numbered p1, p2, p3 in the order written (R67). -/
inductive Instr
  /-- `ADD` (R90): sources p1, p2, destination p3. -/
  | add (p1 p2 p3 : Operand)
  /-- `MUL` (R91): sources p1, p2, destination p3. -/
  | mul (p1 p2 p3 : Operand)
  /-- `IN` (R95): destination p1. -/
  | inp (p1 : Operand)
  /-- `OUT` (R96): source p1. -/
  | out (p1 : Operand)
  /-- `JT` (R100): sources p1 (condition), p2 (target). -/
  | jt (p1 p2 : Operand)
  /-- `JF` (R101): sources p1 (condition), p2 (target). -/
  | jf (p1 p2 : Operand)
  /-- `LT` (R105): sources p1, p2, destination p3. -/
  | lt (p1 p2 p3 : Operand)
  /-- `EQ` (R106): sources p1, p2, destination p3. -/
  | eq (p1 p2 p3 : Operand)
  /-- `ARB` (R110): source p1. -/
  | arb (p1 : Operand)
  /-- `HLT` (R111): no operands. -/
  | hlt
  deriving DecidableEq, Repr

/-- The operation of an instruction: the row of the opcode table (R65). -/
inductive Opcode
  | add | mul | inp | out | jt | jf | lt | eq | arb | hlt
  deriving DecidableEq, Repr

/-- The operation an instruction belongs to. -/
def Instr.opcode : Instr → Opcode
  | .add _ _ _ => .add
  | .mul _ _ _ => .mul
  | .inp _ => .inp
  | .out _ => .out
  | .jt _ _ => .jt
  | .jf _ _ => .jf
  | .lt _ _ _ => .lt
  | .eq _ _ _ => .eq
  | .arb _ => .arb
  | .hlt => .hlt

/-- The operands p1, p2, p3 an instruction has, in order (R65 column arity). -/
def Instr.operands : Instr → List Operand
  | .add p1 p2 p3 => [p1, p2, p3]
  | .mul p1 p2 p3 => [p1, p2, p3]
  | .inp p1 => [p1]
  | .out p1 => [p1]
  | .jt p1 p2 => [p1, p2]
  | .jf p1 p2 => [p1, p2]
  | .lt p1 p2 p3 => [p1, p2, p3]
  | .eq p1 p2 p3 => [p1, p2, p3]
  | .arb p1 => [p1]
  | .hlt => []

/-- The destination operand with its number k, for the five instructions that have one (R67). -/
def Instr.destination? : Instr → Option (Nat × Operand)
  | .add _ _ p3 => some (3, p3)
  | .mul _ _ p3 => some (3, p3)
  | .inp p1 => some (1, p1)
  | .out _ => none
  | .jt _ _ => none
  | .jf _ _ => none
  | .lt _ _ p3 => some (3, p3)
  | .eq _ _ p3 => some (3, p3)
  | .arb _ => none
  | .hlt => none

end Sys2Proof
end

