-- ==== Sys2Proof/WellFormed.lean ====
section
/-! DEFINITION. Which instructions are well-formed. The types of Syntax already rule out every illegal opcode and
mode digit; what is left to check is the one form the spec lets decode and forbids to execute, an Immediate destination
(30_encoding.md R71, R77 column "wti"). -/

namespace Sys2Proof

/-- A destination operand may be Address or Relative, never Immediate (R67, R71). -/
def Operand.destinationLegal (p : Operand) : Bool :=
  match p.mode with
  | .address => true
  | .immediate => false
  | .relative => true

/-- The instruction has no Immediate destination: the words of R77's column "ok". -/
def Instr.wellFormed (i : Instr) : Bool :=
  match i.destination? with
  | none => true
  | some (_, p) => p.destinationLegal

end Sys2Proof
end

