-- ==== Sys2Proof/Decode.lean ====
section
/-! DEFINITION. Decoding (30_encoding.md R61 to R72) and, after it, the encoder (R60, R61, R75). Fields are decimal
digits of the opcode word, not bits. The decode procedure is written once, over any way of fetching the instruction's
k-th word: the machine fetches from memory, the list decoder from a list. -/

namespace Sys2Proof

/-- The number an opcode has in the opcode word (R65). -/
def Opcode.number : Opcode → Nat
  | .add => 1
  | .mul => 2
  | .inp => 3
  | .out => 4
  | .jt => 5
  | .jf => 6
  | .lt => 7
  | .eq => 8
  | .arb => 9
  | .hlt => 99

/-- How many operands an opcode has (R65). -/
def Opcode.arity : Opcode → Nat
  | .add => 3
  | .mul => 3
  | .inp => 1
  | .out => 1
  | .jt => 2
  | .jf => 2
  | .lt => 3
  | .eq => 3
  | .arb => 1
  | .hlt => 0

/-- How many words an opcode's instruction has: `1 + arity` (R60, R73). -/
def Opcode.width (op : Opcode) : Nat := 1 + op.arity

/-- How many words an instruction has (R60). -/
def Instr.width (i : Instr) : Nat := i.opcode.width

/-- The opcode of a number `w mod 100`; the set is closed (R65, R68). -/
def Opcode.ofNumber : Nat → Option Opcode
  | 1 => some .add
  | 2 => some .mul
  | 3 => some .inp
  | 4 => some .out
  | 5 => some .jt
  | 6 => some .jf
  | 7 => some .lt
  | 8 => some .eq
  | 9 => some .arb
  | 99 => some .hlt
  | _ => none

/-- Why an opcode word is rejected: `IllegalOpcode` (R68), `IllegalMode` of operand `k` (R69). -/
inductive Reject
  | illegalOpcode (w : Word)
  | illegalMode (w : Word) (k : Nat)
  deriving DecidableEq, Repr

/-- Why a list of words is no instruction: its opcode word is rejected, or the list ends before the word `ip + k`. -/
inductive DecodeError
  | reject (r : Reject)
  | missingWord (k : Nat)
  deriving DecidableEq, Repr

/-- `digit(w, k)`, the decimal digit of weight `10^k` of a non-negative Word (R6). -/
def digit (w : Word) (k : Nat) : Nat := w.toNat / 10 ^ k % 10

/-- The opcode of an opcode word: none for a negative word, else the row of `w mod 100` (R62, R68). -/
def opcodeOf (w : Word) : Option Opcode :=
  if w.toInt < 0 then none else Opcode.ofNumber (w.toNat % 100)

/-- The mode a mode digit stands for (R64). -/
def Mode.ofDigit : Nat → Option Mode
  | 0 => some .address
  | 1 => some .immediate
  | 2 => some .relative
  | _ => none

/-- The mode digit of a mode (R64). -/
def Mode.toDigit : Mode → Nat
  | .address => 0
  | .immediate => 1
  | .relative => 2

/-- The mode of operand `k` (from 1): the digit of weight `10^(k+1)` (R63), rejected when it is 3 .. 9 (R69). -/
def modeOf {ε : Type} (reject : Reject → ε) (w : Word) (k : Nat) : Except ε Mode :=
  match Mode.ofDigit (digit w (k + 1)) with
  | some m => .ok m
  | none => .error (reject (.illegalMode w k))

/-- The operand of a one-operand instruction: its mode first, then its word (R72). -/
def operands1 {ε : Type} (reject : Reject → ε) (fetch : Nat → Except ε Word) (w : Word) : Except ε Operand := do
  let m1 ← modeOf reject w 1
  let v1 ← fetch 1
  .ok { mode := m1, raw := v1 }

/-- The operands of a two-operand instruction: the modes in ascending order, then the words (R72). -/
def operands2 {ε : Type} (reject : Reject → ε) (fetch : Nat → Except ε Word) (w : Word) :
    Except ε (Operand × Operand) := do
  let m1 ← modeOf reject w 1
  let m2 ← modeOf reject w 2
  let v1 ← fetch 1
  let v2 ← fetch 2
  .ok ({ mode := m1, raw := v1 }, { mode := m2, raw := v2 })

/-- The operands of a three-operand instruction: the modes in ascending order, then the words (R72). -/
def operands3 {ε : Type} (reject : Reject → ε) (fetch : Nat → Except ε Word) (w : Word) :
    Except ε (Operand × Operand × Operand) := do
  let m1 ← modeOf reject w 1
  let m2 ← modeOf reject w 2
  let m3 ← modeOf reject w 3
  let v1 ← fetch 1
  let v2 ← fetch 2
  let v3 ← fetch 3
  .ok ({ mode := m1, raw := v1 }, { mode := m2, raw := v2 }, { mode := m3, raw := v3 })

/-- The instruction of an opcode word whose opcode is `op` (R72). -/
def decodeAs {ε : Type} (reject : Reject → ε) (fetch : Nat → Except ε Word) (w : Word) (op : Opcode) : Except ε Instr :=
  match op with
  | .add => (operands3 reject fetch w).map fun (p1, p2, p3) => .add p1 p2 p3
  | .mul => (operands3 reject fetch w).map fun (p1, p2, p3) => .mul p1 p2 p3
  | .inp => (operands1 reject fetch w).map fun p1 => .inp p1
  | .out => (operands1 reject fetch w).map fun p1 => .out p1
  | .jt => (operands2 reject fetch w).map fun (p1, p2) => .jt p1 p2
  | .jf => (operands2 reject fetch w).map fun (p1, p2) => .jf p1 p2
  | .lt => (operands3 reject fetch w).map fun (p1, p2, p3) => .lt p1 p2 p3
  | .eq => (operands3 reject fetch w).map fun (p1, p2, p3) => .eq p1 p2 p3
  | .arb => (operands1 reject fetch w).map fun p1 => .arb p1
  | .hlt => .ok .hlt

/-- The decode procedure (R72): the opcode word is word 0, operand `k`'s word is word `k`; checks in the order of R72.
`reject` says how a rejected opcode word is reported. -/
def decodeWith {ε : Type} (reject : Reject → ε) (fetch : Nat → Except ε Word) : Except ε Instr := do
  let w ← fetch 0
  match opcodeOf w with
  | none => .error (reject (.illegalOpcode w))
  | some op => decodeAs reject fetch w op

/-- The k-th word of a list of words. -/
def listFetch (ws : List Word) (k : Nat) : Except DecodeError Word :=
  match ws[k]? with
  | some w => .ok w
  | none => .error (.missingWord k)

/-- Decoding a list of words: the instruction at its head and the words after it. Total, rejecting by name. -/
def decode (ws : List Word) : Except DecodeError (Instr × List Word) :=
  (decodeWith .reject (listFetch ws)).map fun i => (i, ws.drop i.width)

/-! The encoder. -/

/-- The digits of the modes of operands from number `k` on, weighted: `100*m1 + 1000*m2 + 10000*m3` for `k = 1` (R75). -/
def modeDigits (k : Nat) : List Operand → Nat
  | [] => 0
  | p :: ps => p.mode.toDigit * 10 ^ (k + 1) + modeDigits (k + 1) ps

/-- The canonical opcode word of an instruction: `opcode + 100*m1 + 1000*m2 + 10000*m3` (R61, R70, R75). -/
def Instr.opcodeWord (i : Instr) : Word := BitVec.ofNat 64 (i.opcode.number + modeDigits 1 i.operands)

/-- The words of an instruction: its opcode word, then its raw operand words in order (R60, R66). -/
def encode (i : Instr) : List Word := i.opcodeWord :: i.operands.map Operand.raw

/-- How many words the longest instruction has (R60). -/
def maxWidth : Nat := 4

/-- The four words of a number of `nbits` bits, bit 0 the least significant bit of the first word, 64 bits a word, and
every bit above `nbits` 0. DEDUCED: the opcode table numbers no bits, a word has 64 (R5); log 9. -/
def tableWords (nbits w : Nat) : List Word :=
  (List.range maxWidth).map fun k => BitVec.ofNat 64 ((w % 2 ^ nbits) / 2 ^ (64 * k))

/-- The instruction this decoder reads from the words of `tableWords` (log 9). -/
def decodeTableWord (nbits w : Nat) : Option Instr :=
  match decode (tableWords nbits w) with
  | .ok (i, _) => some i
  | .error _ => none

end Sys2Proof
end

