-- ==== Sys2Proof/Config.lean ====
section
/-! DEFINITION. What is fixed for the hardware (00_scope.md R5), the five stage names, and the one free value. -/

namespace Sys2Proof

/-- The five stages `S[0] .. S[4]` of a network, and the five FIFOs `F[0] .. F[4]` (R5 `N_STAGES`, R31). -/
inductive Stage
  | s0 | s1 | s2 | s3 | s4
  deriving DecidableEq, Repr, Inhabited

namespace Config

/-- The largest capacity `MEM_WORDS` the spec allows (R5, R45). -/
def maxMemWords : Nat := 2 ^ 62

/-- The word injected into stage 0's FIFO before start (R5 `SEED`). -/
def seed : Word := 0

/-- FREE VALUE: the stage that the n-th free scheduling choice proposes. The spec fixes no order between stages
(R134, R32), so nothing constrains it. DESIGN CHOICE, safe: log 4. -/
opaque freeStage : Nat → Stage

end Config
end Sys2Proof
end

