-- ==== Sys2Proof/Machine/State.lean ====
section
/-! DEFINITION. Everything the spec gives the machine (10_state.md), as plain data, and the state after reset. -/

namespace Sys2Proof.Machine

/-- What an access is for (20_memory.md R43, R44). -/
inductive AccessKind
  | fetch | read | write
  deriving DecidableEq, Repr

/-- The run state of an engine (10_state.md R24). -/
inductive RunState
  | running | halted | faulted
  deriving DecidableEq, Repr

/-- The fault record: the constructor is the register `cause`, its arguments the register `info` with exactly the
values R141 lists for that cause (R25; U3 of 93_implementation_defined.md; log 6). The faulting `ip` is the register
`ip` itself, which a fault leaves unchanged (R141, R146). -/
inductive FaultRecord
  /-- No fault written yet: what the record holds after reset. DESIGN CHOICE (R33 gives no value), unsafe: log 3. -/
  | unwritten
  /-- Code 1 (R142): the opcode word. -/
  | illegalOpcode (w : Word)
  /-- Code 2 (R143): the opcode word and the operand number. -/
  | illegalMode (w : Word) (k : Nat)
  /-- Code 3 (R144): the address and the access kind. -/
  | negativeAddress (a : Int) (kind : AccessKind)
  /-- Code 4 (R145): the operand number. -/
  | writeToImmediate (k : Nat)
  /-- Code 5 (R147): the address and the access kind. -/
  | capacityExceeded (a : Int) (kind : AccessKind)
  /-- Code 6 (R148): nothing beyond `ip`. -/
  | inputStarvation
  deriving DecidableEq, Repr

/-- The memory of one engine: the cells that do not hold 0, by strictly rising address. A cell that is not listed
reads as 0, the reset value of every cell beyond the program (R27, R33, R162). One entry is a whole Word: the machine has
no byte view (R41; log 1). -/
abbrev Memory := List (Nat × Word)

/-- One engine (R20). `outlog` is its port's output log, which both kinds of port have (R28, R29). -/
structure Engine where
  /-- `mem[0 .. MEM_WORDS-1]` (R27). -/
  mem      : Memory
  /-- `MEM_WORDS`, fixed at reset (R27, R45; log 12). -/
  memWords : Nat
  /-- The instruction pointer (R22). -/
  ip       : Word
  /-- The relative base (R23). -/
  rb       : Word
  /-- The run state (R24). -/
  run      : RunState
  /-- `cause` and `info`; to be read through `Engine.faultRecord?` only (R25). -/
  record   : FaultRecord
  /-- The values emitted so far, oldest first (R28, R29). -/
  outlog   : List Word
  deriving DecidableEq, Repr

/-- Five like things, one for each stage (R31). -/
structure PerStage (α : Type) where
  s0 : α
  s1 : α
  s2 : α
  s3 : α
  s4 : α
  deriving DecidableEq, Repr

/-- The two systems the spec builds from engines. Which one it is fixes the kind of every engine's port (R5 `PORT_KIND`,
R163; log 11). -/
inductive System
  /-- One engine with a Buffered port; `inq` is what is left of its input (R28). -/
  | single (engine : Engine) (inq : List Word)
  /-- The amplifier network: five stages, each with a Channel port, and the FIFOs `F[0] .. F[4]` (R31). -/
  | network (stages : PerStage Engine) (fifos : PerStage (List Word))
  deriving DecidableEq, Repr

/-- The whole state. `active`, `schedule` and `turn` are the model's own: they say which stage moves next, which the
spec leaves open (R32, R134; log 4). -/
structure State where
  /-- The single engine with its port, or the network. -/
  system   : System
  /-- The stage whose instruction executes; of no account in a single-engine system. -/
  active   : Stage
  /-- The stages proposed for the next steps, the next one first. -/
  schedule : List Stage
  /-- How many network steps were taken; `Config.freeStage turn` is the proposal when `schedule` is empty. -/
  turn     : Nat
  deriving DecidableEq, Repr

/-- Why a step could stop the model. No constructor: nothing raises one. Every fatal condition of the spec has an entry
the spec describes, which is taken as a next state (R146), and a machine with no enabled step keeps its state (R85, R129;
log 5). Safe: no behaviour of the machine is cut off. -/
inductive Fault
  deriving DecidableEq, Repr

/-- Why an instruction could be without meaning. -/
inductive Refusal
  /-- An arm of `exec` whose instruction has no meaning yet (none is left). Safe: nothing is claimed of it. -/
  | notModelled (mnemonic : String)
  deriving DecidableEq, Repr

/-- The machine right after reset: one engine with a Buffered port, constructed with the empty program image, the largest
capacity and no input (R33, R160). The arguments are DESIGN CHOICE, log 2 (`State.singleReset` and
`State.networkReset` take any); the record is log 3; the model's own fields are log 4. -/
def State.reset : State where
  system :=
    .single { mem := [], memWords := Config.maxMemWords, ip := 0, rb := 0, run := .running, record := .unwritten,
              outlog := [] } []
  active := .s0
  schedule := []
  turn := 0

end Sys2Proof.Machine
end

