-- ==== Sys2Proof/Machine/Memory.lean ====
section
/-! DEFINITION. Memory as a list of cells in one canonical form: reading a cell, writing a cell, an image, the form. -/

namespace Sys2Proof.Machine

/-- What a cell that is not listed reads as: every cell beyond the image is 0 after reset (R27, R33). -/
def Memory.unlisted : Word := 0

/-- The Word in cell `a`. -/
def Memory.read : Memory → Nat → Word
  | [], _ => Memory.unlisted
  | (b, w) :: m, a => if a = b then w else Memory.read m a

/-- `mem[a] <- v`; the list stays in canonical form. -/
def Memory.write : Memory → Nat → Word → Memory
  | [], a, v => if v = Memory.unlisted then [] else [(a, v)]
  | (b, w) :: m, a, v =>
    if a < b then
      if v = Memory.unlisted then (b, w) :: m else (a, v) :: (b, w) :: m
    else if a = b then
      if v = Memory.unlisted then m else (a, v) :: m
    else
      (b, w) :: Memory.write m a v

/-- `ws` written to the cells from `a` on. -/
def Memory.writeAll (m : Memory) (a : Nat) : List Word → Memory
  | [] => m
  | w :: ws => Memory.writeAll (Memory.write m a w) (a + 1) ws

/-- The memory that holds an image from address `a` on and 0 elsewhere. -/
def Memory.ofImageFrom (a : Nat) : List Word → Memory
  | [] => []
  | w :: ws =>
    if w = Memory.unlisted then Memory.ofImageFrom (a + 1) ws else (a, w) :: Memory.ofImageFrom (a + 1) ws

/-- The memory after reset: the program image from address 0, then zeros (R33, R46). -/
def Memory.ofImage (prog : List Word) : Memory := Memory.ofImageFrom 0 prog

/-- Canonical form from address `lo` on: addresses strictly rising, none below `lo`, no entry equal to what an unlisted
cell reads as. -/
def Memory.wfFrom : Nat → Memory → Bool
  | _, [] => true
  | lo, (a, v) :: m => decide (lo ≤ a) && decide (v ≠ Memory.unlisted) && Memory.wfFrom (a + 1) m

/-- The canonical form: equal memories are equal lists. -/
def Memory.wf (m : Memory) : Bool := Memory.wfFrom 0 m

/-- Every listed cell lies below the capacity `n` (R27: the cells are `0 .. MEM_WORDS-1`). -/
def Memory.below (n : Nat) : Memory → Bool
  | [] => true
  | (a, _) :: m => decide (a < n) && Memory.below n m

end Sys2Proof.Machine
end

