-- ==== Sys2Proof/Machine/Ops.lean ====
section
/-! DEFINITION. The named operations every instruction is written with: the active engine and its registers, the checked
memory accesses (R43, R44), taking a fault (R146), the transitions (R83), the port (R121 to R127). -/

namespace Sys2Proof

/-- The stage that consumes what a stage emits: `S[(i+1) mod 5]` (R130). -/
def Stage.next : Stage → Stage
  | .s0 => .s1
  | .s1 => .s2
  | .s2 => .s3
  | .s3 => .s4
  | .s4 => .s0

/-- The producer of a stage's input FIFO: `S[(i+4) mod 5]` (R127, R130). -/
def Stage.prev : Stage → Stage
  | .s0 => .s4
  | .s1 => .s0
  | .s2 => .s1
  | .s3 => .s2
  | .s4 => .s3

namespace Machine

/-- The element of a stage. -/
def PerStage.get {α : Type} (r : PerStage α) : Stage → α
  | .s0 => r.s0
  | .s1 => r.s1
  | .s2 => r.s2
  | .s3 => r.s3
  | .s4 => r.s4

/-- The ring with one stage's element replaced. -/
def PerStage.set {α : Type} (r : PerStage α) (k : Stage) (x : α) : PerStage α :=
  match k with
  | .s0 => { r with s0 := x }
  | .s1 => { r with s1 := x }
  | .s2 => { r with s2 := x }
  | .s3 => { r with s3 := x }
  | .s4 => { r with s4 := x }

/-- *Terminated*: Halted or Faulted (R24, glossary of 00_scope.md). -/
def Engine.terminated (e : Engine) : Bool := decide (e.run ≠ .running)

/-- The code of the register `cause` (R141); 0 stands for the record that no fault has written (log 3). -/
def FaultRecord.code : FaultRecord → Nat
  | .unwritten => 0
  | .illegalOpcode _ => 1
  | .illegalMode _ _ => 2
  | .negativeAddress _ _ => 3
  | .writeToImmediate _ => 4
  | .capacityExceeded _ _ => 5
  | .inputStarvation => 6

/-- Reading `cause` and `info`: only while the engine is Faulted, refused otherwise (R25, R162). -/
def Engine.faultRecord? (e : Engine) : Option FaultRecord :=
  match e.run with
  | .faulted => some e.record
  | .running => none
  | .halted => none

/-! The active engine. -/

/-- The engine at a stage; a single-engine system has its one engine at every stage. -/
def State.engineAt (s : State) (k : Stage) : Engine :=
  match s.system with
  | .single e _ => e
  | .network stages _ => stages.get k

/-- The active engine: the one whose instruction executes. -/
def State.engine (s : State) : Engine := s.engineAt s.active

/-- The state with the engine at a stage replaced; nothing else changes. -/
def State.withEngineAt (s : State) (k : Stage) (e : Engine) : State :=
  match s.system with
  | .single _ inq => { s with system := .single e inq }
  | .network stages fifos => { s with system := .network (stages.set k e) fifos }

/-- The state with the active engine replaced; nothing else changes. -/
def State.withEngine (s : State) (e : Engine) : State := s.withEngineAt s.active e

/-- `ip <- v` (R7). -/
def State.setIp (s : State) (v : Word) : State := s.withEngine { s.engine with ip := v }

/-- `rb <- v` (R7). -/
def State.setRb (s : State) (v : Word) : State := s.withEngine { s.engine with rb := v }

/-! Checked memory accesses. -/

/-- The two checks of every address, in order (R43, R44): below 0, then at or above `MEM_WORDS`. -/
def checkAddress (memWords : Nat) (a : Int) (kind : AccessKind) : Except FaultRecord Nat :=
  if a < 0 then .error (.negativeAddress a kind)
  else if (memWords : Int) ≤ a then .error (.capacityExceeded a kind)
  else .ok a.toNat

/-- The Word in cell `a` of the active engine. -/
def State.readCell (s : State) (a : Nat) : Word := s.engine.mem.read a

/-- `mem[t] <- v` at a checked address `t` (R44). -/
def State.storeCell (s : State) (t : Nat) (v : Word) : State :=
  s.withEngine { s.engine with mem := s.engine.mem.write t v }

/-- `MemRead(a, kind)` (R43). -/
def State.memRead (s : State) (a : Int) (kind : AccessKind) : Except FaultRecord Word :=
  (checkAddress s.engine.memWords a kind).map s.readCell

/-- `MemWrite(a, v)`: the target check and the store in one piece (R44). -/
def State.memWrite (s : State) (a : Int) (v : Word) : Except FaultRecord State :=
  (checkAddress s.engine.memWords a .write).map fun t => s.storeCell t v

/-! Taking a fault. -/

/-- Fault entry (R146): `run <- Faulted`, `cause` and `info` recorded, nothing else changes. There is no handler and no
return from it (R151). -/
def State.raise (s : State) (r : FaultRecord) : State :=
  s.withEngine { s.engine with run := .faulted, record := r }

/-- The end of a step: the state the instruction gives, or the fault entry from the state the step began in, which is
what makes a fault precise (R80, R146, R150). -/
def State.commit (s : State) (r : Except FaultRecord State) : Host.Outcome State Fault Refusal :=
  match r with
  | .ok s' => .next s'
  | .error f => .next (s.raise f)

/-! The transitions. -/

/-- What executing an instruction yields (R83). -/
inductive Transition
  | continue
  | jump (addr : Word)
  | adjustRelative (delta : Word)
  | halt
  deriving DecidableEq, Repr

/-- `ip <- wrap64(ip + width)` (R83). -/
def State.advance (s : State) (width : Nat) : State := s.setIp (wrap64 (s.engine.ip.toInt + width))

/-- `rb <- wrap64(rb + delta)` (R83, R110). -/
def State.adjustRb (s : State) (delta : Word) : State := s.setRb (wrap64 (s.engine.rb.toInt + delta.toInt))

/-- `run <- Halted` (R83, R111). -/
def State.halt (s : State) : State := s.withEngine { s.engine with run := .halted }

/-- Applying a transition, the last action of a step (R83). -/
def State.applyTransition (s : State) (width : Nat) : Transition → State
  | .continue => s.advance width
  | .jump addr => s.setIp addr
  | .adjustRelative delta => (s.adjustRb delta).advance width
  | .halt => s.halt

/-! The port. -/

/-- The values the active engine's port can still deliver, oldest first: `inq` of the Buffered port (R121), or the
content of the stage's own input FIFO `F[i]` (R124). -/
def State.inputQueue (s : State) : List Word :=
  match s.system with
  | .single _ inq => inq
  | .network _ fifos => fifos.get s.active

/-- The state with that sequence replaced. -/
def State.withInputQueue (s : State) (q : List Word) : State :=
  match s.system with
  | .single e _ => { s with system := .single e q }
  | .network stages fifos => { s with system := .network stages (fifos.set s.active q) }

/-- `closed(F[k])`: the producer of the FIFO has terminated; computed, not stored (R127). -/
def fifoClosed (stages : PerStage Engine) (k : Stage) : Bool := (stages.get k.prev).terminated

/-- Nothing can be added to the active engine's input any more: always so for a Buffered port, whose input is fixed at
reset (R121); for a Channel port when its FIFO is closed (R124). -/
def State.inputClosed (s : State) : Bool :=
  match s.system with
  | .single _ _ => true
  | .network stages _ => fifoClosed stages s.active

/-- What `next_input()` answers; `value` carries the state with the value taken (R120). -/
inductive InputAnswer
  | value (w : Word) (s : State)
  | starved
  | blocked
  deriving DecidableEq, Repr

/-- `next_input()` of both ports (R121, R124): the oldest value if there is one, else Starved when none can come any more,
else Blocked. Only `value` changes state. -/
def State.nextInput (s : State) : InputAnswer :=
  match s.inputQueue with
  | w :: rest => .value w (s.withInputQueue rest)
  | [] => if s.inputClosed then .starved else .blocked

/-- `outlog <- outlog ++ [v]` (R122, R125). -/
def State.appendLog (s : State) (v : Word) : State :=
  s.withEngine { s.engine with outlog := s.engine.outlog ++ [v] }

/-- `F[j].q <- F[j].q ++ [v]` with `j = (i+1) mod 5`, whatever the consumer's run state (R125); a Buffered port sends
nothing anywhere (R122). -/
def State.sendDownstream (s : State) (v : Word) : State :=
  match s.system with
  | .single _ _ => s
  | .network stages fifos =>
    { s with system := .network stages (fifos.set s.active.next (fifos.get s.active.next ++ [v])) }

/-- `emit_output(v)` of both ports (R122, R125): never faults, never blocks. -/
def State.emitOutput (s : State) (v : Word) : State := (s.appendLog v).sendDownstream v

end Machine
end Sys2Proof
end

