-- ==== Sys2Proof/Machine/Operands.lean ====
section
/-! DEFINITION. Operand resolution (40_execution_cycle.md R81, R82), every mode. -/

namespace Sys2Proof.Machine

/-- The effective address of an operand: the raw value, or `rb + raw` taken exactly in Int, with no wrap (R81, R82).
An Immediate operand has none. -/
def State.effectiveAddress? (s : State) (p : Operand) : Option Int :=
  match p.mode with
  | .immediate => none
  | .address => some p.raw.toInt
  | .relative => some (s.engine.rb.toInt + p.raw.toInt)

/-- `val(k)`, the value of a source operand (R81). -/
def State.val (s : State) (p : Operand) : Except FaultRecord Word :=
  match s.effectiveAddress? p with
  | none => .ok p.raw
  | some a => s.memRead a .read

/-- `target(k)`, the checked write address of destination operand number `k` (R82). -/
def State.target (s : State) (k : Nat) (p : Operand) : Except FaultRecord Nat :=
  match s.effectiveAddress? p with
  | none => .error (.writeToImmediate k)
  | some a => checkAddress s.engine.memWords a .write

end Sys2Proof.Machine
end

