-- ==== Sys2Proof/Machine/Flags.lean ====
section
/-! DEFINITION. The machine has no flags, condition codes or predicate registers (10_state.md R26). What stands in their
place: the Word a comparison stores (R105, R106) and the test a conditional jump makes of an operand value (R100, R101). -/

namespace Sys2Proof.Machine

/-- The result of a comparison: the Word 1 or the Word 0 (R26, R105, R106). -/
def testResult (b : Bool) : Word := if b then 1 else 0

/-- `a < b` on the signed values; no subtraction, so right at the extremes (R92, R105). -/
def signedLess (a b : Word) : Bool := decide (a.toInt < b.toInt)

/-- `a = b`, all 64 bits (R106). -/
def wordsEqual (a b : Word) : Bool := decide (a = b)

/-- What a conditional jump tests: "true" is any non-zero Word (R100), "false" exactly the Word 0 (R101). -/
def nonZero (c : Word) : Bool := decide (c ≠ 0)

end Sys2Proof.Machine
end

