-- ==== Sys2Proof/Machine/Arithmetic.lean ====
section
/-! DEFINITION. `ADD` and `MUL` (41_arithmetic.md), and the operation all four two-source storing instructions share. -/

namespace Sys2Proof.Machine

/-- Two sources, one destination (the pseudocode of R90, R91, R105, R106): `val(1)`, `val(2)`, `target(3)` in that
order (R88), then the store of `f a b`, then Continue with the width of the instruction. -/
def State.storeResult (s : State) (f : Word → Word → Word) (p1 p2 p3 : Operand) (width : Nat) :
    Except FaultRecord State := do
  let a ← s.val p1
  let b ← s.val p2
  let t ← s.target 3 p3
  .ok ((s.storeCell t (f a b)).applyTransition width .continue)

/-- The sum taken in Int and wrapped to 64 bits (R90, R92). -/
def addWords (a b : Word) : Word := wrap64 (a.toInt + b.toInt)

/-- The exact signed product wrapped to 64 bits: the low half only (R91, R92). -/
def mulWords (a b : Word) : Word := wrap64 (a.toInt * b.toInt)

/-- `ADD` (R90). -/
def execAdd (p1 p2 p3 : Operand) (s : State) : Host.Outcome State Fault Refusal :=
  s.commit (s.storeResult addWords p1 p2 p3 (Instr.add p1 p2 p3).width)

/-- `MUL` (R91). -/
def execMul (p1 p2 p3 : Operand) (s : State) : Host.Outcome State Fault Refusal :=
  s.commit (s.storeResult mulWords p1 p2 p3 (Instr.mul p1 p2 p3).width)

end Sys2Proof.Machine
end

