-- ==== Sys2Proof/Machine/Compare.lean ====
section
/-! DEFINITION. `LT` and `EQ` (44_compare.md). -/

namespace Sys2Proof.Machine

/-- `LT` (R105): the destination is always written, with 1 or 0. -/
def execLt (p1 p2 p3 : Operand) (s : State) : Host.Outcome State Fault Refusal :=
  s.commit (s.storeResult (fun a b => testResult (signedLess a b)) p1 p2 p3 (Instr.lt p1 p2 p3).width)

/-- `EQ` (R106): the destination is always written, with 1 or 0. -/
def execEq (p1 p2 p3 : Operand) (s : State) : Host.Outcome State Fault Refusal :=
  s.commit (s.storeResult (fun a b => testResult (wordsEqual a b)) p1 p2 p3 (Instr.eq p1 p2 p3).width)

end Sys2Proof.Machine
end

