-- ==== Sys2Proof/Machine/Control.lean ====
section
/-! DEFINITION. `ARB` and `HLT` (45_relbase_halt.md). -/

namespace Sys2Proof.Machine

/-- `ARB` (R110): the operand is read with the old `rb`, then added to it once. -/
def execArb (p1 : Operand) (s : State) : Host.Outcome State Fault Refusal :=
  s.commit ((s.val p1).map fun d => s.applyTransition (Instr.arb p1).width (.adjustRelative d))

/-- `HLT` (R111): `run <- Halted`; `ip`, `rb`, memory and the port keep their values. -/
def execHlt (s : State) : Host.Outcome State Fault Refusal :=
  s.commit (.ok (s.applyTransition Instr.hlt.width .halt))

end Sys2Proof.Machine
end

