-- ==== Sys2Proof/Machine/InputOutput.lean ====
section
/-! DEFINITION. `IN` and `OUT` (42_io.md). -/

namespace Sys2Proof.Machine

/-- `IN` (R95): the destination is checked first, then the port is asked once. Starved is the fault `InputStarvation`;
Blocked means the engine has no step, so all state stays (R86, R158; log 7). -/
def execIn (p1 : Operand) (s : State) : Host.Outcome State Fault Refusal :=
  match s.target 1 p1 with
  | .error r => .next (s.raise r)
  | .ok t =>
    match s.nextInput with
    | .starved => .next (s.raise .inputStarvation)
    | .blocked => .next s
    | .value x s' => .next ((s'.storeCell t x).applyTransition (Instr.inp p1).width .continue)

/-- `OUT` (R96): one value emitted; the port never faults and never blocks. -/
def execOut (p1 : Operand) (s : State) : Host.Outcome State Fault Refusal :=
  s.commit ((s.val p1).map fun x => (s.emitOutput x).applyTransition (Instr.out p1).width .continue)

end Sys2Proof.Machine
end

