-- ==== Sys2Proof/Machine/Jump.lean ====
section
/-! DEFINITION. `JT` and `JF` (43_jumps.md). -/

namespace Sys2Proof.Machine

/-- A conditional jump: the condition `val(1)` is read, and the target operand is resolved only when the jump is taken
(R102). The new `ip` is the Word `val(2)`, unchecked; else Continue. -/
def State.jumpWhen (s : State) (taken : Word → Bool) (p1 p2 : Operand) (width : Nat) : Except FaultRecord State := do
  let c ← s.val p1
  if taken c then
    let a ← s.val p2
    .ok (s.applyTransition width (.jump a))
  else
    .ok (s.applyTransition width .continue)

/-- `JT` (R100). -/
def execJt (p1 p2 : Operand) (s : State) : Host.Outcome State Fault Refusal :=
  s.commit (s.jumpWhen nonZero p1 p2 (Instr.jt p1 p2).width)

/-- `JF` (R101). -/
def execJf (p1 p2 : Operand) (s : State) : Host.Outcome State Fault Refusal :=
  s.commit (s.jumpWhen (fun c => !nonZero c) p1 p2 (Instr.jf p1 p2).width)

end Sys2Proof.Machine
end

