-- ==== Sys2Proof/Machine/Fetch.lean ====
section
/-! DEFINITION. Fetching and decoding the instruction at `ip` from memory (30_encoding.md R72), and placing an
instruction where it is fetched next. -/

namespace Sys2Proof.Machine

/-- The fault of a rejected opcode word (R68, R69). -/
def FaultRecord.ofReject : Reject → FaultRecord
  | .illegalOpcode w => .illegalOpcode w
  | .illegalMode w k => .illegalMode w k

/-- The fetch of the active engine's instruction word `k`: `MemRead(ip + k, fetch)`, the address exact (R43, R72, R92). -/
def State.fetchWord (s : State) (k : Nat) : Except FaultRecord Word := s.memRead (s.engine.ip.toInt + k) .fetch

/-- `decode()` of the active engine (R72): afresh from memory at every step (R51). -/
def State.fetchInstr (s : State) : Except FaultRecord Instr := decodeWith FaultRecord.ofReject s.fetchWord

/-- The engine with words placed in its memory from `ip` on, as a load places a program (R163): the capacity is raised
where it would not hold them (the loader chooses MEM_WORDS, R163), and nothing is placed at a negative `ip`, where no
cell exists (log 9). -/
def Engine.placeAtIp (e : Engine) (ws : List Word) : Engine :=
  if e.ip.toInt < 0 then e
  else { e with mem := e.mem.writeAll e.ip.toNat ws, memWords := max e.memWords (e.ip.toNat + ws.length) }

end Sys2Proof.Machine
end

