-- ==== Sys2Proof/Machine/Schedule.lean ====
section
/-! DEFINITION. Which stage steps next: when a step is enabled (40_execution_cycle.md R86) and the choice among the
enabled stages (50_ports_and_network.md R134), which the spec leaves open (log 4). -/

namespace Sys2Proof.Machine

/-- *Blocked* (R86): the active engine's next instruction is a legal `IN` whose destination passes `target`, and its
port answers Blocked, which only a Channel port does. -/
def State.blocked (s : State) : Bool :=
  match s.fetchInstr with
  | .ok (.inp p1) =>
    match s.target 1 p1, s.nextInput with
    | .ok _, .blocked => true
    | _, _ => false
  | _ => false

/-- The state seen from a stage: that stage is the active one. -/
def State.from (s : State) (k : Stage) : State := { s with active := k }

/-- The stage has an enabled step: Running and not Blocked (R86). -/
def State.enabled (s : State) (k : Stage) : Bool :=
  !(s.engineAt k).terminated && !(s.from k).blocked

/-- The stages in ring order, the given one first. -/
def ringFrom (k : Stage) : List Stage :=
  [k, k.next, k.next.next, k.next.next.next, k.next.next.next.next]

/-- The stage proposed to step next: the head of the schedule, else a free value (log 4). -/
def State.proposed (s : State) : Stage :=
  match s.schedule with
  | k :: _ => k
  | [] => Config.freeStage s.turn

/-- The stage that steps: the sole engine, or the proposed stage if its step is enabled, else the first enabled stage
after it in ring order; none if no step is enabled. Every enabled stage is chosen under some proposal (R134; log 4). -/
def State.selectStage (s : State) : Option Stage :=
  match s.system with
  | .single _ _ => if s.enabled s.active then some s.active else none
  | .network _ _ => (ringFrom s.proposed).find? s.enabled

/-- The state in which the selected stage is active and the proposal is used up. A single-engine system has nothing to
choose. -/
def State.turnTo (s : State) (k : Stage) : State :=
  match s.system with
  | .single _ _ => s
  | .network _ _ => { s with active := k, schedule := s.schedule.tail, turn := s.turn + 1 }

end Sys2Proof.Machine
end

