-- ==== Sys2Proof/Machine/Step.lean ====
section
/-! DEFINITION. One step of the machine (40_execution_cycle.md R80), and placing the instruction it fetches next. -/

namespace Sys2Proof.Machine

/-- The step of the active engine: decode at `ip`, then execute, which applies the transition; a decode fault is taken
instead (R80). -/
def State.stepActive (s : State) : Host.Outcome State Fault Refusal :=
  match s.fetchInstr with
  | .ok i => exec i s
  | .error r => .next (s.raise r)

/-- One step of the machine: the selected stage takes its step (R80, R134). With no enabled step (the engine has
terminated, or every live stage waits) the state stays as it is (R24, R85, R129; log 5). -/
def step (s : State) : Host.Outcome State Fault Refusal :=
  match s.selectStage with
  | none => .next s
  | some k => (s.turnTo k).stepActive

/-- The state with an instruction placed where the next step fetches: at `ip` of the sole engine, or of the stage
proposed to step next (log 9). -/
def State.withFetchWord (s : State) (nbits w : Nat) : State :=
  match s.system with
  | .single e inq => { s with system := .single (e.placeAtIp (tableWords nbits w)) inq }
  | .network _ _ => s.withEngineAt s.proposed ((s.engineAt s.proposed).placeAtIp (tableWords nbits w))

end Sys2Proof.Machine
end

