-- ==== Sys2Proof/Machine/Network.lean ====
section
/-! DEFINITION. The amplifier network as a whole: its end, its result, its stuck states (50_ports_and_network.md R129,
R136). -/

namespace Sys2Proof.Machine

/-- `NetworkDone`: `S[4].run = Halted` (R136). -/
def State.networkDone (s : State) : Bool :=
  match s.system with
  | .single _ _ => false
  | .network stages _ => decide (stages.s4.run = .halted)

/-- `NetworkResult`: the last value `S[4]` emitted, defined when NetworkDone and it emitted one (R136). -/
def State.networkResult (s : State) : Option Word :=
  match s.system with
  | .single _ _ => none
  | .network stages _ => if s.networkDone then stages.s4.outlog.getLast? else none

/-- `NetworkClean`: all five stages Halted (R136). -/
def State.networkClean (s : State) : Bool :=
  match s.system with
  | .single _ _ => false
  | .network stages _ =>
    decide (stages.s0.run = .halted) && decide (stages.s1.run = .halted) && decide (stages.s2.run = .halted) &&
      decide (stages.s3.run = .halted) && decide (stages.s4.run = .halted)

/-- Stuck: a network in which no stage has an enabled step and `S[4]` is still Running (R129). -/
def State.stuck (s : State) : Bool :=
  match s.system with
  | .single _ _ => false
  | .network stages _ => decide (s.selectStage = none) && decide (stages.s4.run = .running)

end Sys2Proof.Machine
end

