-- ==== Sys2Proof/Machine/Reset.lean ====
section
/-! DEFINITION. Reset as the construction of a machine from any arguments (10_state.md R33, 50_ports_and_network.md R131,
70_reset_and_hazards.md R160, R161). `State.reset` is one of these machines (log 2). -/

namespace Sys2Proof.Machine

/-- An engine after reset (R33). The record is DESIGN CHOICE, log 3. -/
def Engine.reset (prog : List Word) (memWords : Nat) : Engine where
  mem := Memory.ofImage prog
  memWords := memWords
  ip := 0
  rb := 0
  run := .running
  record := .unwritten
  outlog := []

/-- The bounds on the reset arguments: `PROG_LEN <= MEM_WORDS <= 2^62` (R5, R45). -/
def resetArgsLegal (prog : List Word) (memWords : Nat) : Bool :=
  decide (prog.length ≤ memWords) && decide (memWords ≤ Config.maxMemWords)

/-- A single engine with a Buffered port after reset (R33); no engine is built from arguments out of bounds (R5). -/
def State.singleReset (prog : List Word) (memWords : Nat) (inInit : List Word) : Option State :=
  if resetArgsLegal prog memWords then
    some { system := .single (Engine.reset prog memWords) inInit, active := .s0, schedule := [], turn := 0 }
  else
    none

/-- A network after reset (R131): five engines with the same program, `F[0].q = [PHASE[0], 0]`, `F[i].q = [PHASE[i]]`.
`schedule` proposes the stages of the first steps (log 4). -/
def State.networkReset (prog : List Word) (memWords : Nat) (phase : PerStage Word) (schedule : List Stage) : Option State :=
  if resetArgsLegal prog memWords then
    let e := Engine.reset prog memWords
    some
      { system :=
          .network { s0 := e, s1 := e, s2 := e, s3 := e, s4 := e }
            { s0 := [phase.s0, Config.seed], s1 := [phase.s1], s2 := [phase.s2], s3 := [phase.s3], s4 := [phase.s4] }
        active := .s0, schedule := schedule, turn := 0 }
  else
    none

end Sys2Proof.Machine
end

