-- ==== Sys2Proof/Safety.lean ====
section
/-! DEFINITION. The terms claims use: the invariant of a machine's state, and what a safe run keeps clear of. -/

namespace Sys2Proof.Machine

/-- What holds of every engine the spec can build and run: the memory is in canonical form, every cell lies below the
capacity (R27), the capacity is within its bound (R5, R45), and a Faulted engine has one of the six causes (R25). -/
def Engine.inv (e : Engine) : Bool :=
  e.mem.wf && Memory.below e.memWords e.mem && decide (e.memWords ≤ Config.maxMemWords) &&
    (decide (e.run ≠ .faulted) || decide (e.record ≠ .unwritten))

/-- Every engine of the system meets `Engine.inv`. -/
def State.inv (s : State) : Bool :=
  match s.system with
  | .single e _ => e.inv
  | .network st _ => st.s0.inv && st.s1.inv && st.s2.inv && st.s3.inv && st.s4.inv

/-- No engine of the system is Faulted: a faulted run has no result (R85, R146). -/
def State.safe (s : State) : Bool :=
  match s.system with
  | .single e _ => decide (e.run ≠ .faulted)
  | .network st _ =>
    decide (st.s0.run ≠ .faulted) && decide (st.s1.run ≠ .faulted) && decide (st.s2.run ≠ .faulted) &&
      decide (st.s3.run ≠ .faulted) && decide (st.s4.run ≠ .faulted)

/-- An operand whose value can be read: Immediate, or an effective address that is a cell (R43, R81). -/
def State.readable (s : State) (p : Operand) : Bool :=
  match s.effectiveAddress? p with
  | none => true
  | some a => decide (0 ≤ a) && decide (a < s.engine.memWords)

/-- An operand that can be written: not Immediate, and an effective address that is a cell (R44, R82). -/
def State.writable (s : State) (p : Operand) : Bool :=
  match s.effectiveAddress? p with
  | none => false
  | some a => decide (0 ≤ a) && decide (a < s.engine.memWords)

/-- `s'` is `s` after the active engine stored `v` in cell `t` and went on by `width` words: that cell holds `v`, every
other cell and every other piece of state is as before. -/
def State.storesAndContinues (s s' : State) (t : Nat) (v : Word) (width : Nat) : Prop :=
  s'.readCell t = v ∧ s'.engine.ip = wrap64 (s.engine.ip.toInt + width) ∧
    (∀ c, c ≠ t → s'.readCell c = s.readCell c) ∧
    s' = s.withEngine { s.engine with mem := s'.engine.mem, ip := s'.engine.ip }

/-- The system is an amplifier network. -/
def State.isNetwork (s : State) : Bool :=
  match s.system with
  | .single _ _ => false
  | .network _ _ => true

/-- The state after the listed stages took one step each, in that order; none if a stage's step was not enabled when its
turn came. This is an execution of the network under an explicit schedule (R134). -/
def State.runStages (s : State) : List Stage → Option State
  | [] => some s
  | k :: ks =>
    if s.enabled k then
      match (s.from k).stepActive with
      | .next t => t.runStages ks
      | .fault _ => none
      | .refused _ => none
    else
      none

end Sys2Proof.Machine
end

