-- ==== Sys2Proof/Certificates/Slice0/Obligations.lean ====
section
/-! DEFINITION. The statements for the provers, from the spec's numbered rules. Each docstring names the rules. -/

open Sys2Proof Sys2Proof.Machine

/-! Encoding (30_encoding.md). -/

/-- Words written out from the encoding (R60, R61, R65, R77; V-D1 to V-D14): opcode plus 100, 1000, 10000 times the mode
digits of p1, p2, p3, then the raw words. -/
def Obligations.SpecWordsDecodeAsWritten : Prop :=
  decode [1002, 16, 10, 16] = .ok (.mul ⟨.address, 16⟩ ⟨.immediate, 10⟩ ⟨.address, 16⟩, []) ∧
  decode [22201, -2, -1, 0, 99] = .ok (.add ⟨.relative, -2⟩ ⟨.relative, -1⟩ ⟨.relative, 0⟩, [99]) ∧
  decode [203, 3] = .ok (.inp ⟨.relative, 3⟩, []) ∧
  decode [204, -1] = .ok (.out ⟨.relative, -1⟩, []) ∧
  decode [1105, 5, 4] = .ok (.jt ⟨.immediate, 5⟩ ⟨.immediate, 4⟩, []) ∧
  decode [2106, 0, 4] = .ok (.jf ⟨.immediate, 0⟩ ⟨.relative, 4⟩, []) ∧
  decode [21107, 3, 4, 5] = .ok (.lt ⟨.immediate, 3⟩ ⟨.immediate, 4⟩ ⟨.relative, 5⟩, []) ∧
  decode [1008, 100, 16, 101] = .ok (.eq ⟨.address, 100⟩ ⟨.immediate, 16⟩ ⟨.address, 101⟩, []) ∧
  decode [109, 7] = .ok (.arb ⟨.immediate, 7⟩, []) ∧
  decode [99] = .ok (.hlt, []) ∧ decode [1199] = .ok (.hlt, [])

/-- Decoding what the encoder writes gives the instruction back, with every operand at every value (R60, R61, R66, R75). -/
def Obligations.DecodeOfEncodeIsIdentity : Prop :=
  ∀ (i : Instr) (rest : List Word), decode (encode i ++ rest) = .ok (i, rest)

/-- The other direction: an instruction decoded from a list of words has the opcode `w mod 100`, as mode of operand
k+1 the digit of weight 10^(k+2), and as raw values the words that follow, verbatim (R60 to R66). -/
def Obligations.DecodedFieldsAreTheDigits : Prop :=
  ∀ (ws rest : List Word) (i : Instr), decode ws = .ok (i, rest) →
    ∃ w, ws = w :: (i.operands.map Operand.raw ++ rest) ∧ 0 ≤ w.toInt ∧ w.toNat % 100 = i.opcode.number ∧
      ∀ k p, i.operands[k]? = some p → w.toNat / 10 ^ (k + 2) % 10 = p.mode.toDigit

/-- R70: digits of the opcode word that belong to no operand are not examined. Two non-negative opcode words that agree
in their low `arity + 2` digits decode alike, whatever their other digits hold. -/
def Obligations.UnexaminedDigitsAreIgnored : Prop :=
  ∀ (w w' : Word) (ws : List Word) (op : Opcode) (x : Instr × List Word),
    opcodeOf w = some op → 0 ≤ w'.toInt → w.toNat % 10 ^ (op.arity + 2) = w'.toNat % 10 ^ (op.arity + 2) →
    (decode (w :: ws) = .ok x ↔ decode (w' :: ws) = .ok x)

/-- R68: decode raises IllegalOpcode exactly when the opcode word is negative or `w mod 100` is not one of the ten
opcodes. -/
def Obligations.IllegalOpcodeExactly : Prop :=
  ∀ (s : State) (w : Word), s.fetchWord 0 = .ok w →
    (s.fetchInstr = .error (.illegalOpcode w) ↔
      (w.toInt < 0 ∨ w.toNat % 100 ∉ [1, 2, 3, 4, 5, 6, 7, 8, 9, 99]))

/-- R69: decode raises IllegalMode for the lowest operand of a legal opcode whose mode digit is 3 .. 9, destination
operands included, whatever the operand words are or whether they can be fetched. -/
def Obligations.IllegalModeOfTheLowestOperand : Prop :=
  ∀ (s : State) (w : Word) (op : Opcode) (k : Nat), s.fetchWord 0 = .ok w → opcodeOf w = some op →
    1 ≤ k → k ≤ op.arity → 3 ≤ w.toNat / 10 ^ (k + 1) % 10 →
    (∀ j, 1 ≤ j → j < k → w.toNat / 10 ^ (j + 1) % 10 ≤ 2) →
    s.fetchInstr = .error (.illegalMode w k)

/-- R72, R149 items 1 and 4: a fault of fetching the opcode word comes first; when the opcode and all its modes are legal
the first operand word that cannot be fetched gives the fault. -/
def Obligations.FetchFaultsInOrder : Prop :=
  ∀ (s : State) (r : FaultRecord),
    (s.fetchWord 0 = .error r → s.fetchInstr = .error r) ∧
    (∀ (w : Word) (op : Opcode) (k : Nat), s.fetchWord 0 = .ok w → opcodeOf w = some op →
      (∀ j, 1 ≤ j → j ≤ op.arity → w.toNat / 10 ^ (j + 1) % 10 ≤ 2) → 1 ≤ k → k ≤ op.arity →
      (∀ j, 1 ≤ j → j < k → ∃ v, s.fetchWord j = .ok v) → s.fetchWord k = .error r → s.fetchInstr = .error r)

/-- R71: an instruction with an Immediate destination decodes, and when it executes with readable sources it takes
WriteToImmediate with the destination's number, with nothing written and no input consumed. -/
def Obligations.ImmediateDestinationFaultsAtExecution : Prop :=
  ∀ (s : State) (p1 p2 : Operand) (v : Word) (rest : List Word),
    (∀ i ∈ [Instr.add p1 p2 ⟨.immediate, v⟩, .mul p1 p2 ⟨.immediate, v⟩, .lt p1 p2 ⟨.immediate, v⟩,
        .eq p1 p2 ⟨.immediate, v⟩],
      decode (encode i ++ rest) = .ok (i, rest) ∧
      (s.readable p1 = true → s.readable p2 = true → exec i s = .next (s.raise (.writeToImmediate 3)))) ∧
    decode (encode (.inp ⟨.immediate, v⟩) ++ rest) = .ok (.inp ⟨.immediate, v⟩, rest) ∧
    exec (.inp ⟨.immediate, v⟩) s = .next (s.raise (.writeToImmediate 1))

/-! Memory and operands (20_memory.md, 40_execution_cycle.md). -/

/-- R43: `MemRead(a, kind)` for the kinds fetch and read. -/
def Obligations.MemReadChecksTheAddress : Prop :=
  ∀ (s : State) (a : Int), ∀ kind ∈ [AccessKind.fetch, .read],
    (a < 0 → s.memRead a kind = .error (.negativeAddress a kind)) ∧
    ((s.engine.memWords : Int) ≤ a → s.memRead a kind = .error (.capacityExceeded a kind)) ∧
    (0 ≤ a → a < s.engine.memWords → s.memRead a kind = .ok (s.readCell a.toNat))

/-- R44: `MemWrite(a, v)` checks the address and then changes exactly one cell and nothing else. -/
def Obligations.MemWriteChangesOneCell : Prop :=
  ∀ (s : State) (a : Int) (v : Word), s.engine.mem.wf = true →
    (a < 0 → s.memWrite a v = .error (.negativeAddress a .write)) ∧
    ((s.engine.memWords : Int) ≤ a → s.memWrite a v = .error (.capacityExceeded a .write)) ∧
    (0 ≤ a → a < s.engine.memWords →
      ∃ s', s.memWrite a v = .ok s' ∧ s'.readCell a.toNat = v ∧
        (∀ c, c ≠ a.toNat → s'.readCell c = s.readCell c) ∧
        s' = s.withEngine { s.engine with mem := s'.engine.mem })

/-- Canonical memories that read alike at every address are the same data (the model's form of R27; log 1). -/
def Obligations.CanonicalMemoryIsUnique : Prop :=
  ∀ (m m' : Memory), m.wf = true → m'.wf = true → (∀ a, m.read a = m'.read a) → m = m'

/-- R81: the value of a source operand in each mode; the sum `rb + v` is exact. -/
def Obligations.SourceOperandValue : Prop :=
  ∀ (s : State) (v : Word),
    s.val ⟨.immediate, v⟩ = .ok v ∧
    s.val ⟨.address, v⟩ = s.memRead v.toInt .read ∧
    s.val ⟨.relative, v⟩ = s.memRead (s.engine.rb.toInt + v.toInt) .read

/-- R82: the checked write address of destination operand `k` in each mode. -/
def Obligations.DestinationOperandAddress : Prop :=
  ∀ (s : State) (k : Nat) (v : Word),
    s.target k ⟨.immediate, v⟩ = .error (.writeToImmediate k) ∧
    (∀ m a, (m = Mode.address ∧ a = v.toInt) ∨ (m = Mode.relative ∧ a = s.engine.rb.toInt + v.toInt) →
      (a < 0 → s.target k ⟨m, v⟩ = .error (.negativeAddress a .write)) ∧
      ((s.engine.memWords : Int) ≤ a → s.target k ⟨m, v⟩ = .error (.capacityExceeded a .write)) ∧
      (0 ≤ a → a < s.engine.memWords → s.target k ⟨m, v⟩ = .ok a.toNat))

/-- R51: a store into the cell at `ip` is what the next fetch of the opcode word reads. -/
def Obligations.StoreIsSeenByTheNextFetch : Prop :=
  ∀ (s : State) (t : Nat) (v : Word), s.engine.mem.wf = true → t < s.engine.memWords → s.engine.ip.toInt = t →
    (s.storeCell t v).fetchWord 0 = .ok v

/-! The step (40_execution_cycle.md R80, R86; 50_ports_and_network.md R134). -/

/-- A step runs the decoded instruction: when a stage is selected and its cells decode to `i`, the step is `exec i` at
the state in which that stage is active; a fault of decode is taken instead (R80). Around exec the step adds nothing in a
single-engine system; in a network it makes the stage active, drops the head of the schedule and counts the turn
(the model's own fields, log 4). -/
def Obligations.StepRunsTheDecodedInstruction : Prop :=
  ∀ (s : State) (k : Stage), s.selectStage = some k →
    (∀ i, (s.turnTo k).fetchInstr = .ok i → step s = exec i (s.turnTo k)) ∧
    (∀ r, (s.turnTo k).fetchInstr = .error r → step s = .next ((s.turnTo k).raise r)) ∧
    (s.isNetwork = false → s.turnTo k = s) ∧
    (s.isNetwork = true →
      s.turnTo k = { s with active := k, schedule := s.schedule.tail, turn := s.turn + 1 })

/-- Cells that hold the words of `i` from `ip` on decode to `i`, and a Running single engine then steps by `exec i`
(R66, R72, R80). -/
def Obligations.CellsAtIpAreTheInstructionRun : Prop :=
  ∀ (s : State) (i : Instr), 0 ≤ s.engine.ip.toInt → s.engine.ip.toInt + i.width ≤ s.engine.memWords →
    (∀ j w, (encode i)[j]? = some w → s.readCell (s.engine.ip.toInt.toNat + j) = w) →
    s.fetchInstr = .ok i ∧
    (s.isNetwork = false → s.engine.run = .running → step s = exec i s)

/-- A step of this machine always answers a next state: no fault or refusal of the model cuts a run off, whatever the
program and the data (R85, R146; log 5). -/
def Obligations.StepAlwaysAnswersNext : Prop :=
  ∀ s : State, ∃ t, step s = .next t

/-- R86: a Buffered engine's step is enabled exactly while it is Running; a stage's step is enabled exactly when it is
Running and its next instruction is not an `IN`, with a destination that passes `target`, on an empty FIFO whose producer
is still Running. -/
def Obligations.EnabledExactlyWhenNotWaiting : Prop :=
  ∀ (s : State) (k : Stage),
    (∀ e q, s.system = .single e q → (s.enabled k = true ↔ e.run = .running)) ∧
    (∀ st f, s.system = .network st f →
      (s.enabled k = true ↔
        (st.get k).run = .running ∧
        ¬ ∃ p t, (s.from k).fetchInstr = .ok (.inp p) ∧ (s.from k).target 1 p = .ok t ∧ f.get k = [] ∧
            (st.get k.prev).run = .running))

/-- R134: any stage whose step is enabled may take it next (some schedule selects it), and a network has no step only
when no stage's step is enabled. Which stage is taken when the proposed one is not enabled is the model's choice, log 4. -/
def Obligations.AnyEnabledStageMayStepNext : Prop :=
  ∀ (s : State), s.isNetwork = true →
    (∀ k rest, s.enabled k = true → ({ s with schedule := k :: rest } : State).selectStage = some k) ∧
    (∀ k, s.selectStage = some k → s.enabled k = true) ∧
    (s.selectStage = none ↔ ∀ k, s.enabled k = false)

/-- A machine with no enabled step keeps all its state (R24, R85, R129; log 5); a single engine is in that case exactly
when it has terminated. -/
def Obligations.NoEnabledStepKeepsTheState : Prop :=
  ∀ (s : State),
    (s.selectStage = none → step s = .next s) ∧
    (∀ e q, s.system = .single e q → (s.selectStage = none ↔ e.run ≠ .running))

/-! The instructions (41 to 45). -/

/-- R83: what applying each transition does to the engine; nothing else changes. -/
def Obligations.TransitionEffects : Prop :=
  ∀ (s : State) (n : Nat) (v : Word),
    s.applyTransition n .continue = s.withEngine { s.engine with ip := wrap64 (s.engine.ip.toInt + n) } ∧
    s.applyTransition n (.jump v) = s.withEngine { s.engine with ip := v } ∧
    s.applyTransition n (.adjustRelative v) =
      s.withEngine
        { s.engine with rb := wrap64 (s.engine.rb.toInt + v.toInt), ip := wrap64 (s.engine.ip.toInt + n) } ∧
    s.applyTransition n .halt = s.withEngine { s.engine with run := .halted }

/-- `ADD` (R90) completes on readable sources and a writable destination: the wrapped sum in the target cell. -/
def Obligations.AddStoresTheWrappedSum : Prop :=
  ∀ (p1 p2 p3 : Operand) (s : State), s.engine.mem.wf = true → s.readable p1 = true → s.readable p2 = true →
    s.writable p3 = true →
    ∃ a b t s', s.val p1 = .ok a ∧ s.val p2 = .ok b ∧ s.target 3 p3 = .ok t ∧
      exec (.add p1 p2 p3) s = .next s' ∧ s.storesAndContinues s' t (wrap64 (a.toInt + b.toInt)) 4

/-- `MUL` (R91) completes on readable sources and a writable destination: the low 64 bits of the product. -/
def Obligations.MulStoresTheWrappedProduct : Prop :=
  ∀ (p1 p2 p3 : Operand) (s : State), s.engine.mem.wf = true → s.readable p1 = true → s.readable p2 = true →
    s.writable p3 = true →
    ∃ a b t s', s.val p1 = .ok a ∧ s.val p2 = .ok b ∧ s.target 3 p3 = .ok t ∧
      exec (.mul p1 p2 p3) s = .next s' ∧ s.storesAndContinues s' t (wrap64 (a.toInt * b.toInt)) 4

/-- `LT` (R105) completes on readable sources and a writable destination: 1 if the signed value of p1 is the smaller,
else 0; always written. -/
def Obligations.LtStoresTheSignedComparison : Prop :=
  ∀ (p1 p2 p3 : Operand) (s : State), s.engine.mem.wf = true → s.readable p1 = true → s.readable p2 = true →
    s.writable p3 = true →
    ∃ a b t s', s.val p1 = .ok a ∧ s.val p2 = .ok b ∧ s.target 3 p3 = .ok t ∧
      exec (.lt p1 p2 p3) s = .next s' ∧ s.storesAndContinues s' t (if a.toInt < b.toInt then 1 else 0) 4

/-- `EQ` (R106) completes on readable sources and a writable destination: 1 if the Words are equal, else 0; always
written. -/
def Obligations.EqStoresTheEquality : Prop :=
  ∀ (p1 p2 p3 : Operand) (s : State), s.engine.mem.wf = true → s.readable p1 = true → s.readable p2 = true →
    s.writable p3 = true →
    ∃ a b t s', s.val p1 = .ok a ∧ s.val p2 = .ok b ∧ s.target 3 p3 = .ok t ∧
      exec (.eq p1 p2 p3) s = .next s' ∧ s.storesAndContinues s' t (if a = b then 1 else 0) 4

/-- `IN` (R95) completes on a writable destination and a port with a value: the oldest value is consumed and stored,
and nothing but the input queue, that cell and `ip` changes. -/
def Obligations.InStoresTheOldestInput : Prop :=
  ∀ (p1 : Operand) (s : State) (x : Word) (rest : List Word), s.engine.mem.wf = true → s.writable p1 = true →
    s.inputQueue = x :: rest →
    ∃ t s', s.target 1 p1 = .ok t ∧ exec (.inp p1) s = .next s' ∧ s'.inputQueue = rest ∧
      (s.withInputQueue rest).storesAndContinues s' t x 2

/-- `IN` without a value (R95, R148, R86): a bad destination faults before the port is asked, whatever the port holds;
an empty input that can never be refilled is InputStarvation; an empty open FIFO leaves all state as it is (log 7). -/
def Obligations.InWithoutAValue : Prop :=
  ∀ (p1 : Operand) (s : State),
    (∀ r, s.target 1 p1 = .error r → exec (.inp p1) s = .next (s.raise r)) ∧
    (s.writable p1 = true → s.inputQueue = [] → s.inputClosed = true →
      exec (.inp p1) s = .next (s.raise .inputStarvation)) ∧
    (s.writable p1 = true → s.inputQueue = [] → s.inputClosed = false → exec (.inp p1) s = .next s)

/-- `OUT` (R96) completes on a readable operand: its value is appended to the log of the active engine and, in a network,
to the FIFO of the next stage, whatever that stage's run state; nothing else but `ip` changes. -/
def Obligations.OutEmitsTheValueOnce : Prop :=
  ∀ (p1 : Operand) (s : State), s.readable p1 = true →
    ∃ x s', s.val p1 = .ok x ∧ exec (.out p1) s = .next s' ∧
      s'.engine =
        { s.engine with outlog := s.engine.outlog ++ [x], ip := wrap64 (s.engine.ip.toInt + 2) } ∧
      (∀ e q, s.system = .single e q → s' = { s with system := .single s'.engine q }) ∧
      (∀ st f, s.system = .network st f →
        s' =
          { s with
            system := .network (st.set s.active s'.engine) (f.set s.active.next (f.get s.active.next ++ [x])) })

/-- `JT` (R100, R102) completes: on a non-zero condition and a readable target operand `ip` becomes the target's value,
unchecked; on zero the width is added and the target operand is not resolved. Nothing else changes. -/
def Obligations.JtJumpsOnNonZero : Prop :=
  ∀ (p1 p2 : Operand) (s : State) (c : Word), s.val p1 = .ok c →
    (c ≠ 0 → s.readable p2 = true →
      ∃ a, s.val p2 = .ok a ∧ exec (.jt p1 p2) s = .next (s.withEngine { s.engine with ip := a })) ∧
    (c = 0 → exec (.jt p1 p2) s =
      .next (s.withEngine { s.engine with ip := wrap64 (s.engine.ip.toInt + 3) }))

/-- `JF` (R101, R102) completes: as `JT`, jumping exactly on the Word 0. -/
def Obligations.JfJumpsOnZero : Prop :=
  ∀ (p1 p2 : Operand) (s : State) (c : Word), s.val p1 = .ok c →
    (c = 0 → s.readable p2 = true →
      ∃ a, s.val p2 = .ok a ∧ exec (.jf p1 p2) s = .next (s.withEngine { s.engine with ip := a })) ∧
    (c ≠ 0 → exec (.jf p1 p2) s =
      .next (s.withEngine { s.engine with ip := wrap64 (s.engine.ip.toInt + 3) }))

/-- `ARB` (R110) completes on a readable operand, read with the old `rb`: the value is added to `rb` once, wrapped, and
the width to `ip`; nothing else changes. -/
def Obligations.ArbAddsToTheRelativeBase : Prop :=
  ∀ (p1 : Operand) (s : State), s.readable p1 = true →
    ∃ d, s.val p1 = .ok d ∧
      exec (.arb p1) s =
        .next (s.withEngine
          { s.engine with rb := wrap64 (s.engine.rb.toInt + d.toInt), ip := wrap64 (s.engine.ip.toInt + 2) })

/-- `HLT` (R111) completes in every state: `run` becomes Halted; `ip`, `rb`, memory and the port keep their values. -/
def Obligations.HltHaltsAndKeepsTheRest : Prop :=
  ∀ s : State, exec .hlt s = .next (s.withEngine { s.engine with run := .halted })

/-! Frames. -/

/-- Frame of `ADD`, `MUL`, `LT`, `EQ` for every next state: a fault entry, or a change of `ip` and of the one cell that
`target` computes for p3; every other cell, register, log, queue and stage is unchanged (R84, R88). -/
def Obligations.StoringInstructionsFrame : Prop :=
  ∀ (p1 p2 p3 : Operand) (s s' : State),
    ∀ i ∈ [Instr.add p1 p2 p3, .mul p1 p2 p3, .lt p1 p2 p3, .eq p1 p2 p3], exec i s = .next s' →
      (∃ r, s' = s.raise r) ∨
      (∃ t, s.target 3 p3 = .ok t ∧ (∀ c, c ≠ t → s'.readCell c = s.readCell c) ∧
        s' = s.withEngine { s.engine with mem := s'.engine.mem, ip := s'.engine.ip })

/-- Frame of `IN` for every next state: a fault entry, no change at all (Blocked), or the oldest input consumed, `ip`,
and the one cell that `target` computes for p1; nothing else changes (R84, R95). -/
def Obligations.InFrame : Prop :=
  ∀ (p1 : Operand) (s s' : State), exec (.inp p1) s = .next s' →
    (∃ r, s' = s.raise r) ∨ s' = s ∨
    (∃ t x, s.target 1 p1 = .ok t ∧ s.inputQueue = x :: s'.inputQueue ∧
      (∀ c, c ≠ t → s'.readCell c = s.readCell c) ∧
      s' = (s.withInputQueue s'.inputQueue).withEngine
            { s.engine with mem := s'.engine.mem, ip := s'.engine.ip })

/-- Frame of the instructions that store nothing, `OUT`, `JT`, `JF`, `ARB`, `HLT`, for every next state: every cell and
the input reads as before, `rb` changes only by `ARB`, the log only by `OUT`, `ip` not by `HLT`; the capacity and the
model's own fields never (R84, R100, R110, R111). -/
def Obligations.NonStoringInstructionsFrame : Prop :=
  ∀ (p1 p2 : Operand) (s s' : State),
    ∀ i ∈ [Instr.out p1, .jt p1 p2, .jf p1 p2, .arb p1, .hlt], exec i s = .next s' →
      s'.engine.mem = s.engine.mem ∧ (∀ c, s'.readCell c = s.readCell c) ∧
      s'.engine.memWords = s.engine.memWords ∧ s'.inputQueue = s.inputQueue ∧
      (i ≠ .arb p1 → s'.engine.rb = s.engine.rb) ∧ (i ≠ .out p1 → s'.engine.outlog = s.engine.outlog) ∧
      (i = .hlt → s'.engine.ip = s.engine.ip) ∧
      s'.active = s.active ∧ s'.schedule = s.schedule ∧ s'.turn = s.turn ∧
      ((∃ r, s' = s.raise r) ∨
        (s'.engine.record = s.engine.record ∧ (i ≠ .hlt → s'.engine.run = s.engine.run))) ∧
      (i ≠ .out p1 → s' = s.withEngine s'.engine)

/-- R84 over all ten instructions: at most the one cell the destination operand names, `rb` only by `ARB`, one value taken
only by `IN`, one value emitted only by `OUT`, and never both `ip` and `run`. -/
def Obligations.SideEffectsAreBounded : Prop :=
  ∀ (i : Instr) (s s' : State), exec i s = .next s' →
    (∀ c, (∀ k p, i.destination? = some (k, p) → s.target k p ≠ .ok c) → s'.readCell c = s.readCell c) ∧
    (s'.engine.rb ≠ s.engine.rb → ∃ p, i = .arb p) ∧
    (s'.inputQueue ≠ s.inputQueue → ∃ p x, i = .inp p ∧ s.inputQueue = x :: s'.inputQueue) ∧
    (s'.engine.outlog ≠ s.engine.outlog →
      ∃ p x, i = .out p ∧ s.val p = .ok x ∧ s'.engine.outlog = s.engine.outlog ++ [x]) ∧
    (s'.engine.ip ≠ s.engine.ip → s'.engine.run = s.engine.run)

/-! The port (50_ports_and_network.md). -/

/-- R121, R122: the two operations of the Buffered port. -/
def Obligations.BufferedPortOperations : Prop :=
  ∀ (s : State) (e : Engine) (inq : List Word), s.system = .single e inq →
    (inq = [] → s.nextInput = .starved) ∧
    (∀ w rest, inq = w :: rest → s.nextInput = .value w { s with system := .single e rest }) ∧
    (∀ v, s.emitOutput v = { s with system := .single { e with outlog := e.outlog ++ [v] } inq })

/-- R124, R125: the two operations of the Channel port. The head of the stage's own FIFO is delivered even when the FIFO
is closed; Starved on an empty FIFO whose producer has terminated, else Blocked. A value emitted goes to the stage's log
and to the FIFO of the next stage, in every state of that stage: it never blocks and never fails. -/
def Obligations.ChannelPortOperations : Prop :=
  ∀ (s : State) (st : PerStage Engine) (f : PerStage (List Word)), s.system = .network st f →
    (∀ w rest, f.get s.active = w :: rest →
      s.nextInput = .value w { s with system := .network st (f.set s.active rest) }) ∧
    (f.get s.active = [] → fifoClosed st s.active = true → s.nextInput = .starved) ∧
    (f.get s.active = [] → fifoClosed st s.active = false → s.nextInput = .blocked) ∧
    (∀ v, s.emitOutput v =
      { s with
        system := .network
          (st.set s.active { st.get s.active with outlog := (st.get s.active).outlog ++ [v] })
          (f.set s.active.next (f.get s.active.next ++ [v])) })

/-! Faults (60_exceptions.md). -/

/-- R146: fault entry records the cause and info and sets `run`, and changes nothing else; the record can be read from
then on; the engine has no step any more; in a network the FIFO it feeds is closed. -/
def Obligations.FaultEntryChangesOnlyTheRecord : Prop :=
  ∀ (s : State) (r : FaultRecord),
    (s.raise r).engine = { s.engine with run := .faulted, record := r } ∧
    (s.raise r).engine.faultRecord? = some r ∧
    (s.raise r).enabled s.active = false ∧
    (s.raise r).active = s.active ∧ (s.raise r).schedule = s.schedule ∧ (s.raise r).turn = s.turn ∧
    (∀ e q, s.system = .single e q → (s.raise r).system = .single (s.raise r).engine q) ∧
    (∀ st f, s.system = .network st f →
      ∃ st', (s.raise r).system = .network st' f ∧ (∀ j, j ≠ s.active → st'.get j = st.get j) ∧
        fifoClosed st' s.active.next = true)

/-- R25, R162: `cause` and `info` can be read only while the engine is Faulted, and then are what the fault wrote; the
codes are those of R141. -/
def Obligations.FaultRecordIsReadableOnlyWhenFaulted : Prop :=
  (∀ (e : Engine) (r : FaultRecord), e.faultRecord? = some r ↔ e.run = .faulted ∧ e.record = r) ∧
  (∀ (w : Word) (k : Nat) (a : Int) (kind : AccessKind),
    (FaultRecord.illegalOpcode w).code = 1 ∧ (FaultRecord.illegalMode w k).code = 2 ∧
    (FaultRecord.negativeAddress a kind).code = 3 ∧ (FaultRecord.writeToImmediate k).code = 4 ∧
    (FaultRecord.capacityExceeded a kind).code = 5 ∧ FaultRecord.inputStarvation.code = 6)

/-- R150: faults are precise. If the stage that steps ends Faulted, the whole effect of the step is a fault entry with one
of the six causes, from the state the step began in: no cell, register, input or output is changed. -/
def Obligations.FaultsArePrecise : Prop :=
  ∀ (s t : State) (k : Stage), s.selectStage = some k → step s = .next t → (t.engineAt k).run = .faulted →
    ∃ r, r ≠ .unwritten ∧ t = (s.turnTo k).raise r

/-- R88, R149 item 5: the storing instructions report the first fault in operand order, p1 then p2 then p3. -/
def Obligations.StoringFaultsInOperandOrder : Prop :=
  ∀ (p1 p2 p3 : Operand) (s : State) (r : FaultRecord),
    ∀ i ∈ [Instr.add p1 p2 p3, .mul p1 p2 p3, .lt p1 p2 p3, .eq p1 p2 p3],
      (s.val p1 = .error r → exec i s = .next (s.raise r)) ∧
      (s.readable p1 = true → s.val p2 = .error r → exec i s = .next (s.raise r)) ∧
      (s.readable p1 = true → s.readable p2 = true → s.target 3 p3 = .error r → exec i s = .next (s.raise r))

/-- R96, R100, R101, R110: the faults of `OUT`, `ARB`, `JT` and `JF`: of p1 first, and of the jump target only when the
jump is taken. -/
def Obligations.SourceOperandFaults : Prop :=
  ∀ (p1 p2 : Operand) (s : State) (r : FaultRecord),
    (s.val p1 = .error r → ∀ i ∈ [Instr.out p1, .arb p1, .jt p1 p2, .jf p1 p2], exec i s = .next (s.raise r)) ∧
    (∀ c, s.val p1 = .ok c → s.val p2 = .error r →
      (c ≠ 0 → exec (.jt p1 p2) s = .next (s.raise r)) ∧ (c = 0 → exec (.jf p1 p2) s = .next (s.raise r)))

/-- R22, R43, R102: an `ip` outside memory is accepted, and the fetch faults: NegativeAddress below 0, CapacityExceeded
at or above MEM_WORDS, with `ip` unchanged. -/
def Obligations.FetchOutsideMemoryFaults : Prop :=
  ∀ (s : State) (e : Engine) (q : List Word), s.system = .single e q → e.run = .running →
    (e.ip.toInt < 0 → step s = .next (s.raise (.negativeAddress e.ip.toInt .fetch))) ∧
    ((e.memWords : Int) ≤ e.ip.toInt → step s = .next (s.raise (.capacityExceeded e.ip.toInt .fetch)))

/-! The whole machine. -/

/-- R33, R131: every piece of state after reset, for every argument within the bounds of R5, of a single engine and of a
network. `cause` and `info`, which R33 leaves unspecified, cannot be read. -/
def Obligations.ResetEstablishesTheTable : Prop :=
  ∀ (prog : List Word) (memWords : Nat) (inInit : List Word) (phase : PerStage Word) (sched : List Stage),
    prog.length ≤ memWords → memWords ≤ 2 ^ 62 →
    ∃ s n, State.singleReset prog memWords inInit = some s ∧
      State.networkReset prog memWords phase sched = some n ∧
      (∀ e ∈ [s.engineAt .s0, n.engineAt .s0, n.engineAt .s1, n.engineAt .s2, n.engineAt .s3, n.engineAt .s4],
        (∀ a, a < memWords → e.mem.read a = prog.getD a 0) ∧ e.memWords = memWords ∧
        e.ip = 0 ∧ e.rb = 0 ∧ e.run = .running ∧ e.faultRecord? = none ∧ e.outlog = []) ∧
      (∃ e, s.system = .single e inInit) ∧
      (∃ st, n.system = .network st ⟨[phase.s0, 0], [phase.s1], [phase.s2], [phase.s3], [phase.s4]⟩)

/-- The bounds of R5 and R45 on the reset arguments: arguments out of bounds build no machine (log 2). -/
def Obligations.ArgumentsOutOfBoundsBuildNoMachine : Prop :=
  ∀ (prog : List Word) (memWords : Nat) (inInit : List Word) (phase : PerStage Word) (sched : List Stage),
    ¬ (prog.length ≤ memWords ∧ memWords ≤ 2 ^ 62) →
    State.singleReset prog memWords inInit = none ∧ State.networkReset prog memWords phase sched = none

/-- Every machine that reset builds meets the invariant, the host's `State.reset` (log 2) among them. -/
def Obligations.ResetMeetsTheInvariant : Prop :=
  State.reset.inv = true ∧ State.singleReset [] (2 ^ 62) [] = some State.reset ∧
  (∀ (prog : List Word) (memWords : Nat) (inInit : List Word) (s : State),
    State.singleReset prog memWords inInit = some s → s.inv = true) ∧
  (∀ (prog : List Word) (memWords : Nat) (phase : PerStage Word) (sched : List Stage) (s : State),
    State.networkReset prog memWords phase sched = some s → s.inv = true)

/-- Every step keeps the invariant: canonical memories with every cell below a capacity of at most 2^62, and a Faulted
engine has one of the six causes (R25, R27, R45). -/
def Obligations.StepKeepsTheInvariant : Prop :=
  ∀ (s t : State), s.inv = true → step s = .next t → t.inv = true

/-- R24: no transition leaves Halted or Faulted, and a terminated engine takes no step: nothing of it changes again. -/
def Obligations.TerminatedEngineNeverChanges : Prop :=
  ∀ (s t : State) (k : Stage), (s.engineAt k).run ≠ .running → step s = .next t → t.engineAt k = s.engineAt k

/-- R24, R85, R111: `HLT` is the only instruction that ends a run without a fault. -/
def Obligations.OnlyHltHalts : Prop :=
  ∀ (i : Instr) (s s' : State), s.engine.run = .running → exec i s = .next s' →
    (s'.engine.run = .halted ↔ i = .hlt)

/-- R27, R45: the capacity of an engine never changes. -/
def Obligations.CapacityNeverChanges : Prop :=
  ∀ (s t : State) (k : Stage), step s = .next t → (t.engineAt k).memWords = (s.engineAt k).memWords

/-- R22: the advance of `ip` past a fetched instruction never wraps. -/
def Obligations.AdvanceOfIpNeverWraps : Prop :=
  ∀ (s : State) (i : Instr), s.inv = true → s.fetchInstr = .ok i →
    (wrap64 (s.engine.ip.toInt + i.width)).toInt = s.engine.ip.toInt + i.width

/-- R132, R52: a step of a network changes the engine of the selected stage only. -/
def Obligations.StagesArePrivate : Prop :=
  ∀ (s t : State) (k j : Stage), s.isNetwork = true → s.selectStage = some k → step s = .next t → j ≠ k →
    t.engineAt j = s.engineAt j

/-- R30, R126: a step leaves a FIFO as it is, or its consumer takes the oldest value, or its producer appends the value it
logs: nothing is reordered, dropped, duplicated or altered. -/
def Obligations.FifosKeepOrderAndLoseNothing : Prop :=
  ∀ (s t : State) (st : PerStage Engine) (f : PerStage (List Word)), s.system = .network st f → step s = .next t →
    ∃ st' f', t.system = .network st' f' ∧ ∀ k,
      f'.get k = f.get k ∨
      (s.selectStage = some k ∧ ∃ x, f.get k = x :: f'.get k) ∨
      (s.selectStage = some k.prev ∧
        ∃ v, f'.get k = f.get k ++ [v] ∧ (st'.get k.prev).outlog = (st.get k.prev).outlog ++ [v])

/-- R127: a FIFO is closed exactly when its producer is not Running, and once closed stays closed. -/
def Obligations.ClosedIsTheProducersEndAndStays : Prop :=
  ∀ (s t : State) (st st' : PerStage Engine) (f f' : PerStage (List Word)) (k : Stage), s.system = .network st f →
    step s = .next t → t.system = .network st' f' →
    (fifoClosed st k = true ↔ (st.get k.prev).run ≠ .running) ∧
    (fifoClosed st k = true → fifoClosed st' k = true)

/-- What the spec infers in R129 from R124, R127 and R86: in a network with no enabled step whose S[4] is Running, every
stage is Running and waits on an empty FIFO; that is no fault and has no result. That the step answers the unchanged state
is the model's form of "stays there for ever" (log 5). -/
def Obligations.StuckNetworkStaysWithoutResult : Prop :=
  ∀ (s : State) (st : PerStage Engine) (f : PerStage (List Word)), s.system = .network st f → s.stuck = true →
    (∀ k, (st.get k).run = .running ∧ f.get k = [] ∧ (s.from k).blocked = true) ∧
    step s = .next s ∧ s.safe = true ∧ s.networkDone = false ∧ s.networkResult = none

/-- R136: NetworkDone, NetworkResult and NetworkClean; once the network is done neither the log of S[4] nor the result
can change. -/
def Obligations.NetworkResultIsSettledWhenDone : Prop :=
  ∀ (s t : State) (st : PerStage Engine) (f : PerStage (List Word)), s.system = .network st f → step s = .next t →
    (s.networkDone = true ↔ (st.get .s4).run = .halted) ∧
    (s.networkClean = true ↔ ∀ k, (st.get k).run = .halted) ∧
    (s.networkDone = true → s.networkResult = (st.get .s4).outlog.getLast?) ∧
    (s.networkDone = false → s.networkResult = none) ∧
    (s.networkDone = true →
      t.networkDone = true ∧ (t.engineAt .s4).outlog = (s.engineAt .s4).outlog ∧ t.networkResult = s.networkResult)

/-- R132, R135, R137: what a stage's step does depends only on its own engine, its own input FIFO and whether that is
closed: two networks alike in these take the same step there and emit the same values. -/
def Obligations.StageSeesOnlyItsOwnInputs : Prop :=
  ∀ (s u s' u' : State) (st su : PerStage Engine) (f fu : PerStage (List Word)) (k : Stage),
    s.system = .network st f → u.system = .network su fu → st.get k = su.get k → f.get k = fu.get k →
    fifoClosed st k = fifoClosed su k →
    (s.from k).stepActive = .next s' → (u.from k).stepActive = .next u' →
    s.enabled k = u.enabled k ∧ s'.engineAt k = u'.engineAt k ∧
    ∃ st' su' f' fu' out, s'.system = .network st' f' ∧ u'.system = .network su' fu' ∧ f'.get k = fu'.get k ∧
      f'.get k.next = f.get k.next ++ out ∧ fu'.get k.next = fu.get k.next ++ out

/-- R137, one step at a time: the steps of two different enabled stages do not disturb each other and commute. -/
def Obligations.EnabledStagesCommute : Prop :=
  ∀ (s si sj : State) (i j : Stage), s.isNetwork = true → i ≠ j → s.enabled i = true → s.enabled j = true →
    (s.from i).stepActive = .next si → (s.from j).stepActive = .next sj →
    si.enabled j = true ∧ sj.enabled i = true ∧
    ∃ t t', (si.from j).stepActive = .next t ∧ (sj.from i).stepActive = .next t' ∧ t.system = t'.system

/-- R137: two executions of a network that run until no stage has an enabled step end in the same engines and FIFOs, and
every stage has taken the same number of steps, whatever the schedules. -/
def Obligations.ResultIsIndependentOfTheSchedule : Prop :=
  ∀ (s t t' : State) (ks ks' : List Stage), s.isNetwork = true → s.runStages ks = some t → s.runStages ks' = some t' →
    (∀ k, t.enabled k = false) → (∀ k, t'.enabled k = false) →
    t.system = t'.system ∧ ∀ k, ks.count k = ks'.count k
end

