-- ==== Sys2Proof/Laws/Decode.lean ====
section
/-! SUPPORT. The decode procedure, once: when it answers an instruction and what that instruction then is. Callers cite
`decodeWith_ok_iff` instead of unfolding it. -/

namespace Sys2Proof

@[simp] theorem Mode.ofDigit_toDigit (m : Mode) : Mode.ofDigit m.toDigit = some m := by cases m <;> rfl

theorem Mode.toDigit_lt (m : Mode) : m.toDigit < 3 := by cases m <;> decide

theorem Mode.ofDigit_eq_some {d : Nat} {m : Mode} (h : Mode.ofDigit d = some m) : d = m.toDigit := by
  unfold Mode.ofDigit at h
  split at h <;> cases h <;> rfl

theorem Mode.ofDigit_eq_none {d : Nat} : Mode.ofDigit d = none ↔ 3 ≤ d := by
  match d with
  | 0 => simp [Mode.ofDigit]
  | 1 => simp [Mode.ofDigit]
  | 2 => simp [Mode.ofDigit]
  | n + 3 => simp [Mode.ofDigit]

@[simp] theorem Opcode.ofNumber_number (op : Opcode) : Opcode.ofNumber op.number = some op := by cases op <;> rfl

theorem Opcode.ofNumber_eq_some {n : Nat} {op : Opcode} (h : Opcode.ofNumber n = some op) : n = op.number := by
  unfold Opcode.ofNumber at h
  split at h <;> cases h <;> rfl

theorem Opcode.ofNumber_eq_none {n : Nat} : Opcode.ofNumber n = none ↔ n ∉ [1, 2, 3, 4, 5, 6, 7, 8, 9, 99] := by
  constructor
  · intro h hn
    simp only [List.mem_cons, List.not_mem_nil, or_false] at hn
    rcases hn with rfl | rfl | rfl | rfl | rfl | rfl | rfl | rfl | rfl | rfl <;> cases h
  · intro h
    cases ho : Opcode.ofNumber n with
    | none => rfl
    | some op =>
      rw [Opcode.ofNumber_eq_some ho] at h
      cases op <;> simp [Opcode.number] at h

/-- An opcode word has an opcode exactly when it is not negative and its low two digits are the opcode's number (R62). -/
theorem opcodeOf_eq_some {w : Word} {op : Opcode} :
    opcodeOf w = some op ↔ 0 ≤ w.toInt ∧ w.toNat % 100 = op.number := by
  unfold opcodeOf
  by_cases h : w.toInt < 0
  · simp only [h, if_true]
    constructor
    · intro h'; cases h'
    · intro h'; omega
  · simp only [h, if_false]
    constructor
    · intro h'; exact ⟨by omega, Opcode.ofNumber_eq_some h'⟩
    · rintro ⟨_, h'⟩; rw [h']; exact Opcode.ofNumber_number op

section
variable {ε : Type} {reject : Reject → ε} {fetch : Nat → Except ε Word} {w : Word}

theorem modeOf_ok {k : Nat} {m : Mode} (h : modeOf reject w k = .ok m) : digit w (k + 1) = m.toDigit := by
  unfold modeOf at h
  split at h <;> cases h
  exact Mode.ofDigit_eq_some ‹_›

theorem modeOf_of_digit {k : Nat} {m : Mode} (h : digit w (k + 1) = m.toDigit) : modeOf reject w k = .ok m := by
  simp [modeOf, h]

/-- Operand number `k + 1` of the opcode word and the fetched words. -/
def operandRead (fetch : Nat → Except ε Word) (w : Word) (k : Nat) (p : Operand) : Prop :=
  digit w (k + 2) = p.mode.toDigit ∧ fetch (k + 1) = .ok p.raw

theorem operands1_ok_iff {p : Operand} : operands1 reject fetch w = .ok p ↔ operandRead fetch w 0 p := by
  constructor
  · intro h
    simp only [operands1, bind, Except.bind] at h
    split at h
    · cases h
    · split at h
      · cases h
      · cases h
        exact ⟨modeOf_ok ‹_›, ‹_›⟩
  · rintro ⟨hd, hf⟩
    simp [operands1, bind, Except.bind, modeOf_of_digit hd, hf]

theorem operands2_ok_iff {p q : Operand} :
    operands2 reject fetch w = .ok (p, q) ↔ operandRead fetch w 0 p ∧ operandRead fetch w 1 q := by
  constructor
  · intro h
    simp only [operands2, bind, Except.bind] at h
    repeat' split at h
    all_goals first
      | cases h; exact ⟨⟨modeOf_ok ‹modeOf reject w 1 = _›, ‹fetch 1 = _›⟩, modeOf_ok ‹modeOf reject w 2 = _›, ‹fetch 2 = _›⟩
      | cases h
  · rintro ⟨⟨hd, hf⟩, hd', hf'⟩
    simp [operands2, bind, Except.bind, modeOf_of_digit hd, modeOf_of_digit hd', hf, hf']

theorem operands3_ok_iff {p q r : Operand} :
    operands3 reject fetch w = .ok (p, q, r) ↔
      operandRead fetch w 0 p ∧ operandRead fetch w 1 q ∧ operandRead fetch w 2 r := by
  constructor
  · intro h
    simp only [operands3, bind, Except.bind] at h
    repeat' split at h
    all_goals first
      | cases h
        exact ⟨⟨modeOf_ok ‹modeOf reject w 1 = _›, ‹fetch 1 = _›⟩,
          ⟨modeOf_ok ‹modeOf reject w 2 = _›, ‹fetch 2 = _›⟩, modeOf_ok ‹modeOf reject w 3 = _›, ‹fetch 3 = _›⟩
      | cases h
  · rintro ⟨⟨hd, hf⟩, ⟨hd', hf'⟩, hd'', hf''⟩
    simp [operands3, bind, Except.bind, modeOf_of_digit hd, modeOf_of_digit hd', modeOf_of_digit hd'', hf, hf', hf'']

theorem except_map_eq_ok {α β : Type} {x : Except ε α} {g : α → β} {b : β} (h : x.map g = .ok b) :
    ∃ a, x = .ok a ∧ g a = b := by
  cases x <;> cases h
  exact ⟨_, rfl, rfl⟩

/-- The decode of an opcode answers exactly the instruction of that opcode whose operands are read (R66, R72). -/
theorem decodeAs_ok_iff {op : Opcode} {i : Instr} :
    decodeAs reject fetch w op = .ok i ↔
      i.opcode = op ∧ ∀ k p, i.operands[k]? = some p → operandRead fetch w k p := by
  have one : ∀ p, (∀ k q, [p][k]? = some q → operandRead fetch w k q) ↔ operandRead fetch w 0 p := by
    intro p
    constructor
    · intro h; exact h 0 p rfl
    · intro h k q hk
      match k, hk with
      | 0, hk => cases hk; exact h
  have two : ∀ p p', (∀ k q, [p, p'][k]? = some q → operandRead fetch w k q) ↔
      operandRead fetch w 0 p ∧ operandRead fetch w 1 p' := by
    intro p p'
    constructor
    · intro h; exact ⟨h 0 p rfl, h 1 p' rfl⟩
    · intro h k q hk
      match k, hk with
      | 0, hk => cases hk; exact h.1
      | 1, hk => cases hk; exact h.2
  have three : ∀ p p' p'', (∀ k q, [p, p', p''][k]? = some q → operandRead fetch w k q) ↔
      operandRead fetch w 0 p ∧ operandRead fetch w 1 p' ∧ operandRead fetch w 2 p'' := by
    intro p p' p''
    constructor
    · intro h; exact ⟨h 0 p rfl, h 1 p' rfl, h 2 p'' rfl⟩
    · intro h k q hk
      match k, hk with
      | 0, hk => cases hk; exact h.1
      | 1, hk => cases hk; exact h.2.1
      | 2, hk => cases hk; exact h.2.2
  constructor
  · intro h
    cases op <;> simp only [decodeAs] at h
    case hlt => cases h; exact ⟨rfl, fun k p hk => by cases k <;> cases hk⟩
    case inp | out | arb =>
      obtain ⟨p, hp, rfl⟩ := except_map_eq_ok h
      exact ⟨rfl, (one p).2 (operands1_ok_iff.1 hp)⟩
    case jt | jf =>
      obtain ⟨⟨p, q⟩, hp, rfl⟩ := except_map_eq_ok h
      exact ⟨rfl, (two p q).2 (operands2_ok_iff.1 hp)⟩
    all_goals
      obtain ⟨⟨p, q, r⟩, hp, rfl⟩ := except_map_eq_ok h
      exact ⟨rfl, (three p q r).2 (operands3_ok_iff.1 hp)⟩
  · rintro ⟨rfl, h⟩
    cases i <;> simp only [decodeAs, Instr.opcode, Instr.operands] at h ⊢
    case inp | out | arb => rw [operands1_ok_iff.2 ((one _).1 h)]; rfl
    case jt | jf => rw [operands2_ok_iff.2 ((two _ _).1 h)]; rfl
    all_goals rw [operands3_ok_iff.2 ((three _ _ _).1 h)]; rfl

/-- The decode procedure answers exactly the instruction whose opcode is the opcode word's and whose operands are read
(R62, R63, R66, R72). -/
theorem decodeWith_ok_iff {i : Instr} :
    decodeWith reject fetch = .ok i ↔
      ∃ w, fetch 0 = .ok w ∧ opcodeOf w = some i.opcode ∧
        ∀ k p, i.operands[k]? = some p → operandRead fetch w k p := by
  unfold decodeWith
  constructor
  · intro h
    cases hf : fetch 0 with
    | error e => rw [hf] at h; cases h
    | ok w =>
      rw [hf] at h
      simp only [bind, Except.bind] at h
      cases ho : opcodeOf w with
      | none => rw [ho] at h; cases h
      | some op =>
        rw [ho] at h
        obtain ⟨rfl, hk⟩ := decodeAs_ok_iff.1 h
        exact ⟨w, rfl, ho, hk⟩
  · rintro ⟨w, hf, ho, hk⟩
    simp only [hf, bind, Except.bind, ho]
    exact decodeAs_ok_iff.2 ⟨rfl, hk⟩
end

/-! The encoder. -/

theorem word_ofNat_small {n : Nat} (h : n < 2 ^ 63) :
    0 ≤ (BitVec.ofNat 64 n).toInt ∧ (BitVec.ofNat 64 n).toNat = n := by
  have : n % 2^64 = n := Nat.mod_eq_of_lt (by omega)
  constructor
  · rw [BitVec.toInt_eq_toNat_bmod, BitVec.toNat_ofNat, this]; simp only [Int.bmod]; omega
  · rw [BitVec.toNat_ofNat, this]

/-- The canonical opcode word has the instruction's opcode and its operands' mode digits (R61, R62, R63, R75). -/
theorem Instr.opcodeWord_spec (i : Instr) :
    opcodeOf i.opcodeWord = some i.opcode ∧
      ∀ k p, i.operands[k]? = some p → digit i.opcodeWord (k+2) = p.mode.toDigit := by
  have key : ∀ (op a b c : Nat), op < 100 → a < 3 → b < 3 → c < 3 →
      let n := op + (a * 10^2 + (b * 10^3 + (c * 10^4 + 0)))
      n < 2^63 ∧ n % 100 = op ∧ n / 10^2 % 10 = a ∧ n / 10^3 % 10 = b ∧ n / 10^4 % 10 = c := by
    intro op a b c h ha hb hc n
    refine ⟨?_, ?_, ?_, ?_, ?_⟩ <;> simp only [n] <;> omega
  have gen : ∀ a b c : Nat, a < 3 → b < 3 → c < 3 → i.opcode.number + modeDigits 1 i.operands =
        i.opcode.number + (a * 10^2 + (b * 10^3 + (c * 10^4 + 0))) →
      (∀ k p, i.operands[k]? = some p → p.mode.toDigit = [a, b, c].getD k 0 ∧ k < 3) →
      opcodeOf i.opcodeWord = some i.opcode ∧ ∀ k p, i.operands[k]? = some p → digit i.opcodeWord (k+2) = p.mode.toDigit := by
    intro a b c ha hb hc he hk
    have hop : i.opcode.number < 100 := by cases i <;> simp [Instr.opcode, Opcode.number]
    obtain ⟨h0, h1, h2, h3, h4⟩ := key i.opcode.number a b c hop ha hb hc
    unfold Instr.opcodeWord
    rw [he]
    obtain ⟨hn, hm⟩ := word_ofNat_small h0
    refine ⟨opcodeOf_eq_some.2 ⟨hn, by rw [hm]; exact h1⟩, ?_⟩
    intro k p hp
    obtain ⟨hd, hlt⟩ := hk k p hp
    rw [hd]
    unfold digit
    rw [hm]
    match k, hlt with
    | 0, _ => exact h2
    | 1, _ => exact h3
    | 2, _ => exact h4
  have lt := Mode.toDigit_lt
  cases i with
  | hlt => exact gen 0 0 0 (by omega) (by omega) (by omega) rfl (fun k p h => by cases k <;> cases h)
  | inp p | out p | arb p =>
    refine gen p.mode.toDigit 0 0 (lt _) (by omega) (by omega) (by simp [Instr.operands, modeDigits]) (fun k q h => ?_)
    match k, h with
    | 0, h => cases h; exact ⟨rfl, by omega⟩
  | jt p p' | jf p p' =>
    refine gen p.mode.toDigit p'.mode.toDigit 0 (lt _) (lt _) (by omega) (by simp [Instr.operands, modeDigits]) (fun k q h => ?_)
    match k, h with
    | 0, h => cases h; exact ⟨rfl, by omega⟩
    | 1, h => cases h; exact ⟨rfl, by omega⟩
  | add p p' p'' | mul p p' p'' | lt p p' p'' | eq p p' p'' =>
    refine gen p.mode.toDigit p'.mode.toDigit p''.mode.toDigit (lt _) (lt _) (lt _)
      (by simp [Instr.operands, modeDigits]) (fun k q h => ?_)
    match k, h with
    | 0, h => cases h; exact ⟨rfl, by omega⟩
    | 1, h => cases h; exact ⟨rfl, by omega⟩
    | 2, h => cases h; exact ⟨rfl, by omega⟩

end Sys2Proof
end

