-- ==== Sys2Proof/Laws/Memory.lean ====
section
/-! SUPPORT. Memory: a write is read back, leaves every other cell alone, and keeps the canonical form; so does an image. -/

namespace Sys2Proof.Machine

/-- A write leaves every other cell alone (R44), whatever the list. -/
theorem Memory.read_write_ne (m : Memory) {a b : Nat} (v : Word) (h : b ≠ a) :
    Memory.read (Memory.write m a v) b = Memory.read m b := by
  induction m with
  | nil => by_cases hv : v = Memory.unlisted <;> simp [Memory.write, Memory.read, hv, h]
  | cons c m ih =>
    obtain ⟨c, w⟩ := c
    simp only [Memory.write]
    split
    · split <;> simp [Memory.read, h]
    · split
      · subst_vars
        split <;> simp [Memory.read, h]
      · simp [Memory.read, ih]

/-- The form only weakens when its lower bound does. -/
theorem Memory.wfFrom_mono {lo lo' : Nat} (m : Memory) (h : lo' ≤ lo) (hm : Memory.wfFrom lo m = true) :
    Memory.wfFrom lo' m = true := by
  cases m with
  | nil => rfl
  | cons c m =>
    obtain ⟨c, w⟩ := c
    simp only [Memory.wfFrom, Bool.and_eq_true, decide_eq_true_eq] at hm ⊢
    exact ⟨⟨by omega, hm.1.2⟩, hm.2⟩

/-- Below its lower bound a canonical memory lists nothing. -/
theorem Memory.read_of_wfFrom {lo : Nat} (m : Memory) (hm : Memory.wfFrom lo m = true) {a : Nat} (h : a < lo) :
    Memory.read m a = Memory.unlisted := by
  induction m generalizing lo with
  | nil => rfl
  | cons c m ih =>
    obtain ⟨c, w⟩ := c
    simp only [Memory.wfFrom, Bool.and_eq_true, decide_eq_true_eq] at hm
    simp only [Memory.read]
    rw [if_neg (by omega)]
    exact ih hm.2 (by omega)

/-- What is written is read back (R44), on a canonical memory. -/
theorem Memory.read_write_self_from {lo : Nat} (m : Memory) (hm : Memory.wfFrom lo m = true) (a : Nat) (v : Word) :
    Memory.read (Memory.write m a v) a = v := by
  induction m generalizing lo with
  | nil => by_cases hv : v = Memory.unlisted <;> simp [Memory.write, Memory.read, hv]
  | cons c m ih =>
    obtain ⟨c, w⟩ := c
    have hm' := hm
    simp only [Memory.wfFrom, Bool.and_eq_true, decide_eq_true_eq] at hm'
    simp only [Memory.write]
    split
    · rename_i hlt
      split
      · rename_i hv
        rw [hv]
        refine Memory.read_of_wfFrom (lo := c) _ ?_ hlt
        simp only [Memory.wfFrom, Bool.and_eq_true, decide_eq_true_eq]
        exact ⟨⟨Nat.le_refl _, hm'.1.2⟩, hm'.2⟩
      · simp [Memory.read]
    · split
      · rename_i heq
        split
        · rename_i hv
          rw [hv]
          exact Memory.read_of_wfFrom _ hm'.2 (by omega)
        · simp [Memory.read]
      · rename_i hne
        simp only [Memory.read, if_neg hne]
        exact ih hm'.2

theorem Memory.read_write_self {m : Memory} (hm : m.wf = true) (a : Nat) (v : Word) : (m.write a v).read a = v :=
  Memory.read_write_self_from m hm a v

/-- A write keeps the canonical form. -/
theorem Memory.wfFrom_write {lo : Nat} (m : Memory) (hm : Memory.wfFrom lo m = true) {a : Nat} (h : lo ≤ a) (v : Word) :
    Memory.wfFrom lo (Memory.write m a v) = true := by
  induction m generalizing lo with
  | nil => by_cases hv : v = Memory.unlisted <;> simp [Memory.write, Memory.wfFrom, hv, h]
  | cons c m ih =>
    obtain ⟨c, w⟩ := c
    have hm' := hm
    simp only [Memory.wfFrom, Bool.and_eq_true, decide_eq_true_eq] at hm'
    simp only [Memory.write]
    split
    · split
      · exact hm
      · rename_i hv
        simp only [Memory.wfFrom, Bool.and_eq_true, decide_eq_true_eq]
        exact ⟨⟨h, hv⟩, ⟨by omega, hm'.1.2⟩, hm'.2⟩
    · split
      · rename_i heq
        split
        · exact Memory.wfFrom_mono _ (by omega) hm'.2
        · rename_i hv
          simp only [Memory.wfFrom, Bool.and_eq_true, decide_eq_true_eq]
          exact ⟨⟨h, hv⟩, Memory.wfFrom_mono _ (by omega) hm'.2⟩
      · simp only [Memory.wfFrom, Bool.and_eq_true, decide_eq_true_eq]
        exact ⟨hm'.1, ih hm'.2 (by omega)⟩

theorem Memory.wf_write {m : Memory} (hm : m.wf = true) (a : Nat) (v : Word) : (m.write a v).wf = true :=
  Memory.wfFrom_write m hm (Nat.zero_le a) v

theorem Memory.wf_writeAll {m : Memory} (hm : m.wf = true) (a : Nat) (ws : List Word) : (m.writeAll a ws).wf = true := by
  induction ws generalizing m a with
  | nil => exact hm
  | cons w ws ih => exact ih (Memory.wf_write hm a w) (a + 1)

/-- A write below the capacity lists no cell above it. -/
theorem Memory.below_write {n : Nat} (m : Memory) (hm : Memory.below n m = true) {a : Nat} (h : a < n) (v : Word) :
    Memory.below n (Memory.write m a v) = true := by
  induction m with
  | nil => by_cases hv : v = Memory.unlisted <;> simp [Memory.write, Memory.below, hv, h]
  | cons c m ih =>
    obtain ⟨c, w⟩ := c
    simp only [Memory.below, Bool.and_eq_true, decide_eq_true_eq] at hm
    simp only [Memory.write]
    split
    · split <;> simp [Memory.below, h, hm.1, hm.2]
    · split
      · split <;> simp [Memory.below, h, hm.2]
      · simp [Memory.below, hm.1, ih hm.2]

/-- A loaded image is canonical. -/
theorem Memory.wfFrom_ofImageFrom (a : Nat) (ws : List Word) : Memory.wfFrom a (Memory.ofImageFrom a ws) = true := by
  induction ws generalizing a with
  | nil => rfl
  | cons w ws ih =>
    simp only [Memory.ofImageFrom]
    split
    · exact Memory.wfFrom_mono _ (Nat.le_succ a) (ih (a + 1))
    · rename_i hw
      simp only [Memory.wfFrom, Bool.and_eq_true, decide_eq_true_eq]
      exact ⟨⟨Nat.le_refl a, hw⟩, ih (a + 1)⟩

theorem Memory.wf_ofImage (ws : List Word) : (Memory.ofImage ws).wf = true := Memory.wfFrom_ofImageFrom 0 ws

/-- What a loaded image reads as: its words from `a` on, zeros elsewhere (R33, R46). -/
theorem Memory.read_ofImageFrom (ws : List Word) (a b : Nat) :
    Memory.read (Memory.ofImageFrom a ws) b = if b < a then 0 else ws.getD (b - a) 0 := by
  induction ws generalizing a with
  | nil => simp [Memory.ofImageFrom, Memory.read, Memory.unlisted]
  | cons w ws ih =>
    simp only [Memory.ofImageFrom]
    by_cases hw : w = Memory.unlisted
    · rw [if_pos hw, ih]
      by_cases h1 : b < a
      · rw [if_pos (by omega), if_pos h1]
      · by_cases h2 : b = a
        · subst h2; simp [hw, Memory.unlisted]
        · rw [if_neg (by omega), if_neg h1]
          obtain ⟨n, hn⟩ : ∃ n, b - a = n + 1 := ⟨b - a - 1, by omega⟩
          rw [hn, show b - (a + 1) = n by omega]; rfl
    · rw [if_neg hw]
      simp only [Memory.read, ih]
      by_cases h2 : b = a
      · subst h2; simp
      · rw [if_neg h2]
        by_cases h1 : b < a
        · rw [if_pos (by omega), if_pos h1]
        · rw [if_neg (by omega), if_neg h1]
          obtain ⟨n, hn⟩ : ∃ n, b - a = n + 1 := ⟨b - a - 1, by omega⟩
          rw [hn, show b - (a + 1) = n by omega]; rfl

/-- A loaded image that fits lists no cell above the capacity. -/
theorem Memory.below_ofImageFrom (ws : List Word) (a n : Nat) (h : a + ws.length ≤ n) :
    Memory.below n (Memory.ofImageFrom a ws) = true := by
  induction ws generalizing a with
  | nil => rfl
  | cons w ws ih =>
    simp only [List.length_cons] at h
    simp only [Memory.ofImageFrom]
    split
    · exact ih (a + 1) (by omega)
    · simp [Memory.below, ih (a + 1) (by omega)]; omega

/-- The memory of the state after reset is canonical. -/
theorem reset_memory_wf : State.reset.engine.mem.wf = true := rfl

end Sys2Proof.Machine
end

