-- ==== Sys2Proof/Laws/State.lean ====
section
/-! SUPPORT. The small lemmas of State: what each accessor reads after each update, so that no proof unfolds a record
update. One spelling per notion: `engine`, `engineAt`, `inputQueue`, `inputClosed`, `active`, `schedule`, `turn`. -/

namespace Sys2Proof

@[simp] theorem Stage.prev_next (k : Stage) : k.next.prev = k := by cases k <;> rfl
@[simp] theorem Stage.next_prev (k : Stage) : k.prev.next = k := by cases k <;> rfl
@[simp] theorem Stage.next_ne (k : Stage) : k.next ≠ k := by cases k <;> decide
@[simp] theorem Stage.prev_ne (k : Stage) : k.prev ≠ k := by cases k <;> decide
theorem Stage.next_inj {j k : Stage} (h : j.next = k.next) : j = k := by
  rw [← Stage.prev_next j, h, Stage.prev_next]

namespace Machine

/-! Rings. -/

@[simp] theorem PerStage.get_set_self {α : Type} (r : PerStage α) (k : Stage) (x : α) : (r.set k x).get k = x := by
  cases k <;> rfl

theorem PerStage.get_set_ne {α : Type} (r : PerStage α) {j k : Stage} (x : α) (h : j ≠ k) : (r.set k x).get j = r.get j := by
  cases j <;> cases k <;> first | rfl | exact absurd rfl h

theorem PerStage.get_set {α : Type} (r : PerStage α) (j k : Stage) (x : α) :
    (r.set k x).get j = if j = k then x else r.get j := by
  by_cases h : j = k
  · subst h; simp
  · simp [h, PerStage.get_set_ne r x h]

@[simp] theorem PerStage.set_set {α : Type} (r : PerStage α) (k : Stage) (x y : α) : (r.set k x).set k y = r.set k y := by
  cases k <;> rfl

@[simp] theorem PerStage.set_get {α : Type} (r : PerStage α) (k : Stage) : r.set k (r.get k) = r := by
  cases k <;> rfl

theorem PerStage.set_comm {α : Type} (r : PerStage α) {j k : Stage} (x y : α) (h : j ≠ k) :
    (r.set j x).set k y = (r.set k y).set j x := by
  cases j <;> cases k <;> first | rfl | exact absurd rfl h

/-- Two rings with the same element at every stage are equal. -/
theorem PerStage.ext_get {α : Type} {r q : PerStage α} (h : ∀ k, r.get k = q.get k) : r = q := by
  cases r; cases q
  have h0 := h .s0; have h1 := h .s1; have h2 := h .s2; have h3 := h .s3; have h4 := h .s4
  simp only [PerStage.get] at h0 h1 h2 h3 h4
  subst h0 h1 h2 h3 h4; rfl

/-! The engine update. -/

section
variable (s : State) (k : Stage) (e e' : Engine)

@[simp] theorem State.withEngineAt_active : (s.withEngineAt k e).active = s.active := by
  cases s with | mk sys a sc t => cases sys <;> rfl
@[simp] theorem State.withEngineAt_schedule : (s.withEngineAt k e).schedule = s.schedule := by
  cases s with | mk sys a sc t => cases sys <;> rfl
@[simp] theorem State.withEngineAt_turn : (s.withEngineAt k e).turn = s.turn := by
  cases s with | mk sys a sc t => cases sys <;> rfl
@[simp] theorem State.withEngineAt_engineAt : (s.withEngineAt k e).engineAt k = e := by
  cases s with | mk sys a sc t => cases sys <;> simp [State.withEngineAt, State.engineAt]
@[simp] theorem State.withEngineAt_withEngineAt : (s.withEngineAt k e).withEngineAt k e' = s.withEngineAt k e' := by
  cases s with | mk sys a sc t => cases sys <;> simp [State.withEngineAt]
@[simp] theorem State.withEngineAt_inputQueue : (s.withEngineAt k e).inputQueue = s.inputQueue := by
  cases s with | mk sys a sc t => cases sys <;> rfl

@[simp] theorem State.withEngine_active : (s.withEngine e).active = s.active := s.withEngineAt_active _ e
@[simp] theorem State.withEngine_schedule : (s.withEngine e).schedule = s.schedule := s.withEngineAt_schedule _ e
@[simp] theorem State.withEngine_turn : (s.withEngine e).turn = s.turn := s.withEngineAt_turn _ e
@[simp] theorem State.withEngine_inputQueue : (s.withEngine e).inputQueue = s.inputQueue :=
  s.withEngineAt_inputQueue _ e
@[simp] theorem State.withEngine_engine : (s.withEngine e).engine = e := by
  unfold State.engine
  rw [State.withEngine_active]
  exact s.withEngineAt_engineAt _ e
@[simp] theorem State.withEngine_withEngine : (s.withEngine e).withEngine e' = s.withEngine e' := by
  unfold State.withEngine
  rw [State.withEngineAt_active]
  exact s.withEngineAt_withEngineAt _ e e'
@[simp] theorem State.withEngine_engine_self : s.withEngine s.engine = s := by
  cases s with | mk sys a sc t => cases sys <;> simp [State.withEngine, State.withEngineAt, State.engine, State.engineAt]

/-- A ring's closed test does not see the engine that is updated, unless it is the producer. -/
@[simp] theorem State.withEngine_inputClosed : (s.withEngine e).inputClosed = s.inputClosed := by
  cases s with | mk sys a sc t =>
  cases sys with
  | single => rfl
  | network st f =>
    simp [State.withEngine, State.withEngineAt, State.inputClosed, fifoClosed, PerStage.get_set_ne]
end

/-- An engine update leaves every other stage's engine alone. -/
theorem State.withEngineAt_engineAt_ne {s : State} {st : PerStage Engine} {f : PerStage (List Word)}
    (hs : s.system = .network st f) {j k : Stage} (h : j ≠ k) (e : Engine) :
    (s.withEngineAt k e).engineAt j = s.engineAt j := by
  simp [State.withEngineAt, State.engineAt, hs, PerStage.get_set_ne _ _ h]

/-- The system after an engine update, by its form. -/
theorem State.withEngine_system_network {s : State} {st : PerStage Engine} {f : PerStage (List Word)}
    (hs : s.system = .network st f) (e : Engine) : (s.withEngine e).system = .network (st.set s.active e) f := by
  simp [State.withEngine, State.withEngineAt, hs]
theorem State.withEngine_system_single {s : State} {e0 : Engine} {q : List Word}
    (hs : s.system = .single e0 q) (e : Engine) : (s.withEngine e).system = .single e q := by
  simp [State.withEngine, State.withEngineAt, hs]

/-! The single-register updates: the engine after each. -/

section
variable (s : State) (v : Word)

@[simp] theorem State.setIp_engine : (s.setIp v).engine = { s.engine with ip := v } := s.withEngine_engine _
@[simp] theorem State.setRb_engine : (s.setRb v).engine = { s.engine with rb := v } := s.withEngine_engine _
@[simp] theorem State.storeCell_engine (a : Nat) :
    (s.storeCell a v).engine = { s.engine with mem := s.engine.mem.write a v } := s.withEngine_engine _
@[simp] theorem State.raise_engine (r : FaultRecord) :
    (s.raise r).engine = { s.engine with run := .faulted, record := r } := s.withEngine_engine _
@[simp] theorem State.halt_engine : s.halt.engine = { s.engine with run := .halted } := s.withEngine_engine _
@[simp] theorem State.appendLog_engine :
    (s.appendLog v).engine = { s.engine with outlog := s.engine.outlog ++ [v] } := s.withEngine_engine _
@[simp] theorem State.advance_engine (n : Nat) :
    (s.advance n).engine = { s.engine with ip := wrap64 (s.engine.ip.toInt + n) } := s.withEngine_engine _
@[simp] theorem State.adjustRb_engine :
    (s.adjustRb v).engine = { s.engine with rb := wrap64 (s.engine.rb.toInt + v.toInt) } := s.withEngine_engine _

@[simp] theorem State.setIp_active : (s.setIp v).active = s.active := s.withEngine_active _
@[simp] theorem State.setRb_active : (s.setRb v).active = s.active := s.withEngine_active _
@[simp] theorem State.storeCell_active (a : Nat) : (s.storeCell a v).active = s.active := s.withEngine_active _
@[simp] theorem State.raise_active (r : FaultRecord) : (s.raise r).active = s.active := s.withEngine_active _
@[simp] theorem State.halt_active : s.halt.active = s.active := s.withEngine_active _
@[simp] theorem State.appendLog_active : (s.appendLog v).active = s.active := s.withEngine_active _
@[simp] theorem State.advance_active (n : Nat) : (s.advance n).active = s.active := s.withEngine_active _

@[simp] theorem State.setIp_inputQueue : (s.setIp v).inputQueue = s.inputQueue := s.withEngine_inputQueue _
@[simp] theorem State.setRb_inputQueue : (s.setRb v).inputQueue = s.inputQueue := s.withEngine_inputQueue _
@[simp] theorem State.storeCell_inputQueue (a : Nat) : (s.storeCell a v).inputQueue = s.inputQueue :=
  s.withEngine_inputQueue _
@[simp] theorem State.raise_inputQueue (r : FaultRecord) : (s.raise r).inputQueue = s.inputQueue :=
  s.withEngine_inputQueue _
@[simp] theorem State.halt_inputQueue : s.halt.inputQueue = s.inputQueue := s.withEngine_inputQueue _
@[simp] theorem State.advance_inputQueue (n : Nat) : (s.advance n).inputQueue = s.inputQueue :=
  s.withEngine_inputQueue _
end

/-! The input queue and the downstream FIFO. -/

section
variable (s : State) (q : List Word) (v : Word)

@[simp] theorem State.withInputQueue_active : (s.withInputQueue q).active = s.active := by
  cases s with | mk sys a sc t => cases sys <;> rfl
@[simp] theorem State.withInputQueue_schedule : (s.withInputQueue q).schedule = s.schedule := by
  cases s with | mk sys a sc t => cases sys <;> rfl
@[simp] theorem State.withInputQueue_turn : (s.withInputQueue q).turn = s.turn := by
  cases s with | mk sys a sc t => cases sys <;> rfl
@[simp] theorem State.withInputQueue_engineAt (k : Stage) : (s.withInputQueue q).engineAt k = s.engineAt k := by
  cases s with | mk sys a sc t => cases sys <;> rfl
@[simp] theorem State.withInputQueue_engine : (s.withInputQueue q).engine = s.engine := by
  simp [State.engine]
@[simp] theorem State.withInputQueue_inputQueue : (s.withInputQueue q).inputQueue = q := by
  cases s with | mk sys a sc t => cases sys <;> simp [State.withInputQueue, State.inputQueue]
@[simp] theorem State.withInputQueue_inputClosed : (s.withInputQueue q).inputClosed = s.inputClosed := by
  cases s with | mk sys a sc t => cases sys <;> rfl

@[simp] theorem State.sendDownstream_active : (s.sendDownstream v).active = s.active := by
  cases s with | mk sys a sc t => cases sys <;> rfl
@[simp] theorem State.sendDownstream_engineAt (k : Stage) : (s.sendDownstream v).engineAt k = s.engineAt k := by
  cases s with | mk sys a sc t => cases sys <;> rfl
@[simp] theorem State.sendDownstream_engine : (s.sendDownstream v).engine = s.engine := by
  simp [State.engine]
/-- A stage does not feed itself. -/
@[simp] theorem State.sendDownstream_inputQueue : (s.sendDownstream v).inputQueue = s.inputQueue := by
  cases s with | mk sys a sc t =>
  cases sys with
  | single => rfl
  | network st f => simp [State.sendDownstream, State.inputQueue, PerStage.get_set_ne _ _ (Stage.next_ne a).symm]

@[simp] theorem State.emitOutput_active : (s.emitOutput v).active = s.active := by simp [State.emitOutput]
@[simp] theorem State.emitOutput_engine :
    (s.emitOutput v).engine = { s.engine with outlog := s.engine.outlog ++ [v] } := by simp [State.emitOutput]
@[simp] theorem State.emitOutput_inputQueue : (s.emitOutput v).inputQueue = s.inputQueue := by
  simp [State.emitOutput, State.appendLog]

/-- The engine update and the queue update do not meet. -/
theorem State.withInputQueue_withEngine (e : Engine) :
    (s.withInputQueue q).withEngine e = (s.withEngine e).withInputQueue q := by
  cases s with | mk sys a sc t => cases sys <;> rfl
theorem State.sendDownstream_withEngine (e : Engine) :
    (s.sendDownstream v).withEngine e = (s.withEngine e).sendDownstream v := by
  cases s with | mk sys a sc t => cases sys <;> rfl
end

/-! Reading the sole engine or a stage's engine by the system's form. -/

theorem State.engineAt_single {s : State} {e : Engine} {q : List Word} (h : s.system = .single e q) (k : Stage) :
    s.engineAt k = e := by simp [State.engineAt, h]
theorem State.engineAt_network {s : State} {st : PerStage Engine} {f : PerStage (List Word)} (h : s.system = .network st f)
    (k : Stage) : s.engineAt k = st.get k := by simp [State.engineAt, h]

end Machine
end Sys2Proof
end

