-- ==== Sys2Proof/Laws/Ops.lean ====
section
/-! SUPPORT. For each shared operation, once, everything it can do. -/

namespace Sys2Proof.Machine

/-- The address checks: the three cases of R43 and R44. -/
theorem checkAddress_cases (n : Nat) (a : Int) (kind : AccessKind) :
    (a < 0 ∧ checkAddress n a kind = .error (.negativeAddress a kind)) ∨
    ((n : Int) ≤ a ∧ checkAddress n a kind = .error (.capacityExceeded a kind)) ∨
    (0 ≤ a ∧ a < n ∧ checkAddress n a kind = .ok a.toNat) := by
  unfold checkAddress
  by_cases h0 : a < 0
  · exact .inl ⟨h0, by simp [h0]⟩
  · by_cases h1 : (n : Int) ≤ a
    · exact .inr (.inl ⟨h1, by simp [h0, h1]⟩)
    · exact .inr (.inr ⟨by omega, by omega, by simp [h0, h1]⟩)

/-- An address of a cell passes the checks. -/
theorem checkAddress_in {n : Nat} {a : Int} {kind : AccessKind} (h0 : 0 ≤ a) (h1 : a < n) :
    checkAddress n a kind = .ok a.toNat := by
  unfold checkAddress
  rw [if_neg (by omega), if_neg (by omega)]

/-- A checked address is a cell. -/
theorem checkAddress_ok {n : Nat} {a : Int} {kind : AccessKind} {t : Nat} (h : checkAddress n a kind = .ok t) :
    t < n ∧ (t : Int) = a := by
  rcases checkAddress_cases n a kind with ⟨_, h'⟩ | ⟨_, h'⟩ | ⟨h0, h1, h'⟩ <;> rw [h'] at h <;> cases h
  omega

/-- A rejected address is rejected with one of the six causes. -/
theorem checkAddress_error {n : Nat} {a : Int} {kind : AccessKind} {r : FaultRecord}
    (h : checkAddress n a kind = .error r) : r ≠ .unwritten := by
  rcases checkAddress_cases n a kind with ⟨_, h'⟩ | ⟨_, h'⟩ | ⟨_, _, h'⟩ <;> rw [h'] at h <;> cases h <;> simp

theorem State.memRead_error {s : State} {a : Int} {kind : AccessKind} {r : FaultRecord}
    (h : s.memRead a kind = .error r) : r ≠ .unwritten := by
  unfold State.memRead at h
  cases hc : checkAddress s.engine.memWords a kind with
  | ok t => rw [hc] at h; cases h
  | error r' => rw [hc] at h; cases h; exact checkAddress_error hc

theorem State.val_error {s : State} {p : Operand} {r : FaultRecord} (h : s.val p = .error r) : r ≠ .unwritten := by
  unfold State.val at h
  cases ha : s.effectiveAddress? p with
  | none => rw [ha] at h; cases h
  | some a => rw [ha] at h; exact State.memRead_error h

/-- A checked target is a cell of the active engine. -/
theorem State.target_ok {s : State} {k : Nat} {p : Operand} {t : Nat} (h : s.target k p = .ok t) :
    t < s.engine.memWords := by
  unfold State.target at h
  cases ha : s.effectiveAddress? p with
  | none => rw [ha] at h; cases h
  | some a => rw [ha] at h; exact (checkAddress_ok h).1

theorem State.target_error {s : State} {k : Nat} {p : Operand} {r : FaultRecord} (h : s.target k p = .error r) :
    r ≠ .unwritten := by
  unfold State.target at h
  cases ha : s.effectiveAddress? p with
  | none => rw [ha] at h; cases h; simp
  | some a => rw [ha] at h; exact checkAddress_error h

/-- The end of a step: a state or a fault entry. -/
theorem State.commit_next {s t : State} {r : Except FaultRecord State} (h : s.commit r = .next t) :
    r = .ok t ∨ ∃ f, r = .error f ∧ t = s.raise f := by
  cases r with
  | ok s' => left; simp only [State.commit] at h; cases h; rfl
  | error f => right; simp only [State.commit] at h; cases h; exact ⟨f, rfl, rfl⟩

/-- A three-operand instruction: the store and the advance, or the first fault in operand order. -/
theorem State.storeResult_ok {s t : State} {f : Word → Word → Word} {p1 p2 p3 : Operand} {n : Nat}
    (h : s.storeResult f p1 p2 p3 n = .ok t) :
    ∃ a b c, s.val p1 = .ok a ∧ s.val p2 = .ok b ∧ s.target 3 p3 = .ok c ∧ t = (s.storeCell c (f a b)).advance n := by
  unfold State.storeResult at h
  cases h1 : s.val p1 with
  | error r => rw [h1] at h; cases h
  | ok a =>
    cases h2 : s.val p2 with
    | error r => rw [h1, h2] at h; cases h
    | ok b =>
      cases h3 : s.target 3 p3 with
      | error r => rw [h1, h2, h3] at h; cases h
      | ok c => rw [h1, h2, h3] at h; cases h; exact ⟨a, b, c, rfl, rfl, rfl, rfl⟩

theorem State.storeResult_error {s : State} {f : Word → Word → Word} {p1 p2 p3 : Operand} {n : Nat} {r : FaultRecord}
    (h : s.storeResult f p1 p2 p3 n = .error r) : r ≠ .unwritten := by
  unfold State.storeResult at h
  cases h1 : s.val p1 with
  | error r => rw [h1] at h; cases h; exact State.val_error h1
  | ok a =>
    cases h2 : s.val p2 with
    | error r => rw [h1, h2] at h; cases h; exact State.val_error h2
    | ok b =>
      cases h3 : s.target 3 p3 with
      | error r => rw [h1, h2, h3] at h; cases h; exact State.target_error h3
      | ok c => rw [h1, h2, h3] at h; cases h

/-- A conditional jump: taken with its target resolved, or not taken with its target untouched. -/
theorem State.jumpWhen_ok {s t : State} {c : Word → Bool} {p1 p2 : Operand} {n : Nat}
    (h : s.jumpWhen c p1 p2 n = .ok t) :
    ∃ v, s.val p1 = .ok v ∧
      ((c v = true ∧ ∃ a, s.val p2 = .ok a ∧ t = s.setIp a) ∨ (c v = false ∧ t = s.advance n)) := by
  unfold State.jumpWhen at h
  cases h1 : s.val p1 with
  | error r => rw [h1] at h; cases h
  | ok v =>
    refine ⟨v, rfl, ?_⟩
    rw [h1] at h
    cases hc : c v with
    | false => right; simp only [bind, Except.bind, hc] at h; cases h; exact ⟨rfl, rfl⟩
    | true =>
      left
      simp only [bind, Except.bind, hc, if_true] at h
      cases h2 : s.val p2 with
      | error r => rw [h2] at h; cases h
      | ok a => rw [h2] at h; cases h; exact ⟨rfl, a, rfl, rfl⟩

theorem State.jumpWhen_error {s : State} {c : Word → Bool} {p1 p2 : Operand} {n : Nat} {r : FaultRecord}
    (h : s.jumpWhen c p1 p2 n = .error r) : r ≠ .unwritten := by
  unfold State.jumpWhen at h
  cases h1 : s.val p1 with
  | error r => rw [h1] at h; cases h; exact State.val_error h1
  | ok v =>
    rw [h1] at h
    cases hc : c v with
    | false => simp only [bind, Except.bind, hc] at h; cases h
    | true =>
      simp only [bind, Except.bind, hc, if_true] at h
      cases h2 : s.val p2 with
      | error r => rw [h2] at h; cases h; exact State.val_error h2
      | ok a => rw [h2] at h; cases h

/-- `next_input()`: the three answers (R120, R121, R124). -/
theorem State.nextInput_cases (s : State) :
    (∃ x rest, s.inputQueue = x :: rest ∧ s.nextInput = .value x (s.withInputQueue rest)) ∨
    (s.inputQueue = [] ∧ s.inputClosed = true ∧ s.nextInput = .starved) ∨
    (s.inputQueue = [] ∧ s.inputClosed = false ∧ s.nextInput = .blocked) := by
  unfold State.nextInput
  cases hq : s.inputQueue with
  | cons x rest => exact .inl ⟨x, rest, rfl, rfl⟩
  | nil =>
    cases hc : s.inputClosed with
    | true => exact .inr (.inl ⟨rfl, rfl, rfl⟩)
    | false => exact .inr (.inr ⟨rfl, rfl, rfl⟩)

/-! Operands depend on the active engine alone. -/

section
variable {s u : State} (he : u.engine = s.engine)
include he
theorem State.val_congr (p : Operand) : u.val p = s.val p := by
  have : u.readCell = s.readCell := by funext a; simp [State.readCell, he]
  unfold State.val State.effectiveAddress? State.memRead
  rw [he, this]
theorem State.target_congr (k : Nat) (p : Operand) : u.target k p = s.target k p := by
  unfold State.target State.effectiveAddress?
  rw [he]
end

end Sys2Proof.Machine
end

