-- ==== Sys2Proof/Laws/PerInstr.lean ====
section
/-! SUPPORT. Facts of every instruction as syntax, one lemma per constructor. -/

namespace Sys2Proof.Laws

namespace EncodedWidth

/-- The encoding has exactly the width of the instruction, one word for the opcode word and one per operand, at most
four (R60). -/
def Statement (i : Instr) : Prop :=
  (encode i).length = i.width ∧ i.width = 1 + i.operands.length ∧ i.width ≤ maxWidth

theorem add (p1 p2 p3 : Operand) : Statement (.add p1 p2 p3) := ⟨rfl, rfl, Nat.le_of_ble_eq_true rfl⟩
theorem mul (p1 p2 p3 : Operand) : Statement (.mul p1 p2 p3) := ⟨rfl, rfl, Nat.le_of_ble_eq_true rfl⟩
theorem inp (p1 : Operand) : Statement (.inp p1) := ⟨rfl, rfl, Nat.le_of_ble_eq_true rfl⟩
theorem out (p1 : Operand) : Statement (.out p1) := ⟨rfl, rfl, Nat.le_of_ble_eq_true rfl⟩
theorem jt (p1 p2 : Operand) : Statement (.jt p1 p2) := ⟨rfl, rfl, Nat.le_of_ble_eq_true rfl⟩
theorem jf (p1 p2 : Operand) : Statement (.jf p1 p2) := ⟨rfl, rfl, Nat.le_of_ble_eq_true rfl⟩
theorem lt (p1 p2 p3 : Operand) : Statement (.lt p1 p2 p3) := ⟨rfl, rfl, Nat.le_of_ble_eq_true rfl⟩
theorem eq (p1 p2 p3 : Operand) : Statement (.eq p1 p2 p3) := ⟨rfl, rfl, Nat.le_of_ble_eq_true rfl⟩
theorem arb (p1 : Operand) : Statement (.arb p1) := ⟨rfl, rfl, Nat.le_of_ble_eq_true rfl⟩
theorem hlt : Statement .hlt := ⟨rfl, rfl, Nat.le_of_ble_eq_true rfl⟩

end EncodedWidth
end Sys2Proof.Laws
end

