-- ==== Sys2Proof/Laws/Safety.lean ====
section
/-! SUPPORT. What the terms of Safety give: a readable operand has a value, a writable one a target, and the invariant
engine by engine. -/

namespace Sys2Proof.Machine

theorem State.readable_val {s : State} {p : Operand} (h : s.readable p = true) : ∃ v, s.val p = .ok v := by
  unfold State.readable at h; unfold State.val State.memRead
  cases ha : s.effectiveAddress? p with
  | none => exact ⟨_, rfl⟩
  | some a =>
    rw [ha] at h; simp at h
    simp [checkAddress_in h.1 h.2, Except.map]

theorem State.writable_target {s : State} {p : Operand} (k : Nat) (h : s.writable p = true) : ∃ t, s.target k p = .ok t := by
  unfold State.writable at h; unfold State.target
  cases ha : s.effectiveAddress? p with
  | none => rw [ha] at h; cases h
  | some a =>
    rw [ha] at h; simp at h
    simp [checkAddress_in h.1 h.2]

theorem Engine.inv_iff (e : Engine) :
    e.inv = true ↔
      e.mem.wf = true ∧ Memory.below e.memWords e.mem = true ∧ e.memWords ≤ Config.maxMemWords ∧
        (e.run = .faulted → e.record ≠ .unwritten) := by
  simp only [Engine.inv, Bool.and_eq_true, Bool.or_eq_true, decide_eq_true_eq]
  tauto

theorem State.inv_iff (s : State) : s.inv = true ↔ ∀ k, (s.engineAt k).inv = true := by
  cases s with | mk sys a sc t =>
  cases sys with
  | single e q => simp [State.inv, State.engineAt]
  | network st f =>
    simp only [State.inv, State.engineAt, Bool.and_eq_true]
    constructor
    · rintro ⟨⟨⟨⟨h0, h1⟩, h2⟩, h3⟩, h4⟩ k; cases k <;> assumption
    · intro h; exact ⟨⟨⟨⟨h .s0, h .s1⟩, h .s2⟩, h .s3⟩, h .s4⟩

end Sys2Proof.Machine
end

