-- ==== Sys2Proof/Laws/Schedule.lean ====
section
/-! SUPPORT. When a stage is Blocked or enabled, and on what that depends. -/

namespace Sys2Proof.Machine

/-- Fetch and decode depend on the active engine alone. -/
theorem State.fetchInstr_congr {s u : State} (he : u.engine = s.engine) : u.fetchInstr = s.fetchInstr := by
  have : u.readCell = s.readCell := by funext a; simp [State.readCell, he]
  unfold State.fetchInstr
  congr 1
  funext k
  unfold State.fetchWord State.memRead
  rw [he, this]

/-- Blocked (R86): a legal `IN` whose destination passes `target`, on an empty port that is still open. -/
theorem State.blocked_iff {s : State} :
    s.blocked = true ↔
      ∃ p t, s.fetchInstr = .ok (.inp p) ∧ s.target 1 p = .ok t ∧ s.inputQueue = [] ∧ s.inputClosed = false := by
  unfold State.blocked
  constructor
  · intro h
    split at h
    · rename_i p hp
      split at h
      · rename_i t ht hn
        rcases s.nextInput_cases with ⟨x, r, _, hn'⟩ | ⟨_, _, hn'⟩ | ⟨hq, hc, hn'⟩
        · rw [hn'] at hn; cases hn
        · rw [hn'] at hn; cases hn
        · exact ⟨p, t, hp, ht, hq, hc⟩
      · cases h
    · cases h
  · rintro ⟨p, t, hp, ht, hq, hc⟩
    have hn : s.nextInput = .blocked := by simp [State.nextInput, hq, hc]
    rw [hp]
    simp [ht, hn]

/-- A stage reads its own FIFO (R30, R130). -/
theorem State.from_inputQueue {s : State} {st : PerStage Engine} {f : PerStage (List Word)} (h : s.system = .network st f)
    (k : Stage) : (s.from k).inputQueue = f.get k := by simp [State.inputQueue, State.from, h]
theorem State.from_inputClosed {s : State} {st : PerStage Engine} {f : PerStage (List Word)} (h : s.system = .network st f)
    (k : Stage) : (s.from k).inputClosed = fifoClosed st k := by simp [State.inputClosed, State.from, h]

/-- A stage's step is enabled: Running and not Blocked (R86). -/
theorem State.enabled_network {s : State} {st : PerStage Engine} {f : PerStage (List Word)} (h : s.system = .network st f)
    (k : Stage) : s.enabled k = true ↔ (st.get k).run = .running ∧ (s.from k).blocked = false := by
  simp [State.enabled, State.engineAt, h, Engine.terminated]

/-- Whether a stage's step is enabled depends on the system alone, not on the model's own fields. -/
theorem State.enabled_congr {s u : State} (h : s.system = u.system) (k : Stage) : s.enabled k = u.enabled k := by
  have he : (s.from k).engine = (u.from k).engine := by simp [State.engine, State.from, State.engineAt, h]
  have hq : (s.from k).inputQueue = (u.from k).inputQueue := by simp [State.inputQueue, State.from, h]
  have hc : (s.from k).inputClosed = (u.from k).inputClosed := by simp [State.inputClosed, State.from, h]
  have hb : (s.from k).blocked = (u.from k).blocked := by
    rw [Bool.eq_iff_iff, State.blocked_iff, State.blocked_iff, State.fetchInstr_congr he, hq, hc]
    simp only [State.target_congr he]
  simp [State.enabled, State.engineAt, h, hb]

end Sys2Proof.Machine
end

