-- ==== Sys2Proof/Laws/Step.lean ====
section
/-! SUPPORT. Everything one instruction and one step can do, said once: the inversion lemmas `exec_cases` and
`step_cases`. Every whole-machine property is a case analysis over them. -/

namespace Sys2Proof.Machine

/-- What executing an instruction can lead to. -/
inductive ExecCase (i : Instr) (s : State) : State → Prop
  /-- A fault entry with one of the six causes (R146). -/
  | fault (r : FaultRecord) (hr : r ≠ .unwritten) : ExecCase i s (s.raise r)
  /-- `ADD`, `MUL`, `LT`, `EQ`: one cell, the checked target of p3, then Continue. -/
  | store (p : Operand) (a : Nat) (v : Word) (hd : i.destination? = some (3, p)) (ht : s.target 3 p = .ok a) :
      ExecCase i s ((s.storeCell a v).advance 4)
  /-- `IN` with a value: it is taken, stored, then Continue. -/
  | input (p : Operand) (a : Nat) (x : Word) (rest : List Word) (hi : i = .inp p) (ht : s.target 1 p = .ok a)
      (hq : s.inputQueue = x :: rest) : ExecCase i s (((s.withInputQueue rest).storeCell a x).advance 2)
  /-- `IN` Blocked: nothing changes. -/
  | blocked (p : Operand) (a : Nat) (hi : i = .inp p) (ht : s.target 1 p = .ok a) (hq : s.inputQueue = [])
      (hc : s.inputClosed = false) : ExecCase i s s
  /-- `OUT`: one value emitted, then Continue. -/
  | output (p : Operand) (x : Word) (hi : i = .out p) (hv : s.val p = .ok x) :
      ExecCase i s ((s.emitOutput x).advance 2)
  /-- `JT`, `JF` taken. -/
  | jump (p1 p2 : Operand) (a : Word) (hi : i = .jt p1 p2 ∨ i = .jf p1 p2) (hv : s.val p2 = .ok a) :
      ExecCase i s (s.setIp a)
  /-- `JT`, `JF` not taken. -/
  | fallThrough (p1 p2 : Operand) (hi : i = .jt p1 p2 ∨ i = .jf p1 p2) : ExecCase i s (s.advance 3)
  /-- `ARB`: `rb` once, then the advance. -/
  | adjust (p : Operand) (d : Word) (hi : i = .arb p) (hv : s.val p = .ok d) : ExecCase i s ((s.adjustRb d).advance 2)
  /-- `HLT`. -/
  | halt (hi : i = .hlt) : ExecCase i s s.halt

theorem storeResult_case {i : Instr} {s t : State} {f : Word → Word → Word} {p1 p2 p3 : Operand}
    (hd : i.destination? = some (3, p3)) (h : s.commit (s.storeResult f p1 p2 p3 4) = .next t) : ExecCase i s t := by
  rcases State.commit_next h with h' | ⟨r, h', rfl⟩
  · obtain ⟨a, b, c, -, -, hc, rfl⟩ := State.storeResult_ok h'
    exact .store p3 c (f a b) hd hc
  · exact .fault r (State.storeResult_error h')

theorem jumpWhen_case {i : Instr} {s t : State} {c : Word → Bool} {p1 p2 : Operand}
    (hi : i = .jt p1 p2 ∨ i = .jf p1 p2) (h : s.commit (s.jumpWhen c p1 p2 3) = .next t) : ExecCase i s t := by
  rcases State.commit_next h with h' | ⟨r, h', rfl⟩
  · obtain ⟨v, -, ⟨-, a, ha, rfl⟩ | ⟨-, rfl⟩⟩ := State.jumpWhen_ok h'
    · exact .jump p1 p2 a hi ha
    · exact .fallThrough p1 p2 hi
  · exact .fault r (State.jumpWhen_error h')

theorem execIn_case {s t : State} {p : Operand} (h : execIn p s = .next t) : ExecCase (.inp p) s t := by
  unfold execIn at h
  cases ht : s.target 1 p with
  | error r => rw [ht] at h; cases h; exact .fault r (State.target_error ht)
  | ok a =>
    rw [ht] at h
    rcases s.nextInput_cases with ⟨x, rest, hq, hn⟩ | ⟨hq, hc, hn⟩ | ⟨hq, hc, hn⟩ <;> rw [hn] at h <;> cases h
    · exact .input p a x rest rfl ht hq
    · exact .fault _ (by simp)
    · exact .blocked p a rfl ht hq hc

/-- One instruction does one of these things. -/
theorem exec_cases {i : Instr} {s t : State} (h : exec i s = .next t) : ExecCase i s t := by
  cases i with
  | add p1 p2 p3 => exact storeResult_case rfl h
  | mul p1 p2 p3 => exact storeResult_case rfl h
  | lt p1 p2 p3 => exact storeResult_case rfl h
  | eq p1 p2 p3 => exact storeResult_case rfl h
  | inp p => exact execIn_case h
  | jt p1 p2 => exact jumpWhen_case (.inl rfl) h
  | jf p1 p2 => exact jumpWhen_case (.inr rfl) h
  | out p =>
    rcases State.commit_next h with h' | ⟨r, h', rfl⟩
    · cases hv : s.val p with
      | error r => rw [hv] at h'; cases h'
      | ok x => rw [hv] at h'; cases h'; exact .output p x rfl hv
    · cases hv : s.val p with
      | error r' => rw [hv] at h'; cases h'; exact .fault _ (State.val_error hv)
      | ok x => rw [hv] at h'; cases h'
  | arb p =>
    rcases State.commit_next h with h' | ⟨r, h', rfl⟩
    · cases hv : s.val p with
      | error r => rw [hv] at h'; cases h'
      | ok x => rw [hv] at h'; cases h'; exact .adjust p x rfl hv
    · cases hv : s.val p with
      | error r' => rw [hv] at h'; cases h'; exact .fault _ (State.val_error hv)
      | ok x => rw [hv] at h'; cases h'
  | hlt => cases h; exact .halt rfl

/-! Fetching. -/

theorem modeOf_error {w : Word} {k : Nat} {r : FaultRecord}
    (h : modeOf FaultRecord.ofReject w k = .error r) : r ≠ .unwritten := by
  unfold modeOf at h
  split at h <;> cases h
  simp [FaultRecord.ofReject]

/-- A fault of decode has one of the six causes. -/
theorem State.fetchInstr_error {s : State} {r : FaultRecord} (h : s.fetchInstr = .error r) : r ≠ .unwritten := by
  have hf : ∀ k r, s.fetchWord k = .error r → r ≠ .unwritten := fun k r h => State.memRead_error h
  have hm : ∀ w k r, modeOf FaultRecord.ofReject w k = .error r → r ≠ .unwritten :=
    fun _ _ _ h => modeOf_error h
  have h1 : ∀ w r, operands1 FaultRecord.ofReject s.fetchWord w = .error r → r ≠ .unwritten := by
    intro w r h
    simp only [operands1, bind, Except.bind] at h
    repeat' split at h
    all_goals first
      | cases h; exact hm _ _ _ ‹_›
      | cases h; exact hf _ _ ‹_›
      | cases h
  have h2 : ∀ w r, operands2 FaultRecord.ofReject s.fetchWord w = .error r → r ≠ .unwritten := by
    intro w r h
    simp only [operands2, bind, Except.bind] at h
    repeat' split at h
    all_goals first
      | cases h; exact hm _ _ _ ‹_›
      | cases h; exact hf _ _ ‹_›
      | cases h
  have h3 : ∀ w r, operands3 FaultRecord.ofReject s.fetchWord w = .error r → r ≠ .unwritten := by
    intro w r h
    simp only [operands3, bind, Except.bind] at h
    repeat' split at h
    all_goals first
      | cases h; exact hm _ _ _ ‹_›
      | cases h; exact hf _ _ ‹_›
      | cases h
  have hmap : ∀ {α : Type} (x : Except FaultRecord α) (g : α → Instr) (r : FaultRecord),
      x.map g = .error r → x = .error r := by
    intro α x g r h
    cases x <;> cases h; rfl
  unfold State.fetchInstr decodeWith at h
  cases h0 : s.fetchWord 0 with
  | error r' => rw [h0] at h; cases h; exact hf _ _ h0
  | ok w =>
    rw [h0] at h
    simp only [bind, Except.bind] at h
    split at h
    · cases h; simp [FaultRecord.ofReject]
    · rename_i op _
      cases op <;> simp only [decodeAs] at h
      all_goals first
        | exact h1 _ _ (hmap _ _ _ h)
        | exact h2 _ _ (hmap _ _ _ h)
        | exact h3 _ _ (hmap _ _ _ h)
        | cases h

/-! Selecting and stepping. -/

@[simp] theorem State.turnTo_system (s : State) (k : Stage) : (s.turnTo k).system = s.system := by
  cases s with | mk sys a sc t => cases sys <;> rfl
@[simp] theorem State.turnTo_engineAt (s : State) (j k : Stage) : (s.turnTo k).engineAt j = s.engineAt j := by
  simp [State.engineAt]
theorem State.turnTo_active_network {s : State} {st : PerStage Engine} {f : PerStage (List Word)}
    (h : s.system = .network st f) (k : Stage) : (s.turnTo k).active = k := by simp [State.turnTo, h]
theorem State.turnTo_single {s : State} {e : Engine} {q : List Word} (h : s.system = .single e q) (k : Stage) :
    s.turnTo k = s := by simp [State.turnTo, h]

/-- The active engine after the turn is the engine of the stage turned to. -/
theorem State.turnTo_engine (s : State) (k : Stage) : (s.turnTo k).engine = s.engineAt k := by
  cases s with | mk sys a sc t => cases sys <;> rfl

@[simp] theorem State.from_system (s : State) (k : Stage) : (s.from k).system = s.system := rfl
@[simp] theorem State.from_active (s : State) (k : Stage) : (s.from k).active = k := rfl
@[simp] theorem State.from_engineAt (s : State) (j k : Stage) : (s.from k).engineAt j = s.engineAt j := rfl
theorem State.from_engine (s : State) (k : Stage) : (s.from k).engine = s.engineAt k := rfl

/-- The selected stage has an enabled step. -/
theorem State.selectStage_enabled {s : State} {k : Stage} (h : s.selectStage = some k) : s.enabled k = true := by
  unfold State.selectStage at h
  split at h
  · split at h <;> cases h; assumption
  · exact List.find?_some h

/-- One step of the active engine: the decoded instruction, or the fault of decode. -/
theorem State.stepActive_cases {s t : State} (h : s.stepActive = .next t) :
    (∃ i, s.fetchInstr = .ok i ∧ ExecCase i s t) ∨
    (∃ r, s.fetchInstr = .error r ∧ r ≠ .unwritten ∧ t = s.raise r) := by
  unfold State.stepActive at h
  cases hf : s.fetchInstr with
  | ok i => rw [hf] at h; exact .inl ⟨i, rfl, exec_cases h⟩
  | error r => rw [hf] at h; cases h; exact .inr ⟨r, rfl, State.fetchInstr_error hf, rfl⟩

/-- One step of the machine: nothing moves, or the selected stage takes its step. -/
theorem step_cases {s t : State} (h : step s = .next t) :
    (s.selectStage = none ∧ t = s) ∨
    (∃ k, s.selectStage = some k ∧ s.enabled k = true ∧
      ((∃ i, (s.turnTo k).fetchInstr = .ok i ∧ ExecCase i (s.turnTo k) t) ∨
       (∃ r, (s.turnTo k).fetchInstr = .error r ∧ r ≠ .unwritten ∧ t = (s.turnTo k).raise r))) := by
  unfold step at h
  cases hs : s.selectStage with
  | none => rw [hs] at h; cases h; exact .inl ⟨rfl, rfl⟩
  | some k => rw [hs] at h; exact .inr ⟨k, rfl, State.selectStage_enabled hs, State.stepActive_cases h⟩

end Sys2Proof.Machine
end

