-- ==== Sys2Proof/Tests/Slice0.lean ====
section
/-! SUPPORT. The model's own tests: the WellFormed smoke, decoding, one step of each instruction, and a witness that the
hypotheses of each obligation can be met. Expected values are the spec's own vectors (95_test_vectors.md), named V-… in
the comments, or its rules applied by hand. -/

namespace Sys2Proof.Tests

open Sys2Proof.Machine

/-! Helpers. -/

/-- The next state of an outcome. -/
def after (o : Host.Outcome State Fault Refusal) : Option State :=
  match o with
  | .next s => some s
  | .fault _ => none
  | .refused _ => none

/-- An engine just after reset whose capacity is the length of its program. -/
def eng (prog : List Word) : Engine := Engine.reset prog prog.length

/-- A single engine, from a program and its input (95_test_vectors.md section 0). -/
def mach (prog inq : List Word) : State :=
  { system := .single (eng prog) inq, active := .s0, schedule := [], turn := 0 }

/-- The single engine of `e`, without input. -/
def sole (e : Engine) : State := { system := .single e [], active := .s0, schedule := [], turn := 0 }

/-- The network of five engines with this program and these FIFOs; `sched` proposes the stages. -/
def net (prog : List Word) (fifos : PerStage (List Word)) (sched : List Stage) : State :=
  { system := .network ⟨eng prog, eng prog, eng prog, eng prog, eng prog⟩ fifos, active := .s0, schedule := sched,
    turn := 0 }

/-- What one step leaves, seen through `view`. -/
def seen {α : Type} (s : State) (view : State → α) : Option α := (after (step s)).map view

/-! WellFormed: an Immediate destination is refused (R71), one ill-formed term for each instruction that has a
destination; the other modes pass. -/

theorem test_wf_refuses_add : (Instr.add ⟨.address, 0⟩ ⟨.address, 0⟩ ⟨.immediate, 0⟩).wellFormed = false := by decide
theorem test_wf_refuses_mul : (Instr.mul ⟨.address, 0⟩ ⟨.address, 0⟩ ⟨.immediate, 0⟩).wellFormed = false := by decide
theorem test_wf_refuses_lt : (Instr.lt ⟨.address, 0⟩ ⟨.address, 0⟩ ⟨.immediate, 0⟩).wellFormed = false := by decide
theorem test_wf_refuses_eq : (Instr.eq ⟨.address, 0⟩ ⟨.address, 0⟩ ⟨.immediate, 0⟩).wellFormed = false := by decide
theorem test_wf_refuses_inp : (Instr.inp ⟨.immediate, 0⟩).wellFormed = false := by decide
theorem test_wf_accepts_relative : (Instr.inp ⟨.relative, 0⟩).wellFormed = true := by decide
theorem test_wf_accepts_sources : (Instr.jt ⟨.immediate, 1⟩ ⟨.immediate, 0⟩).wellFormed = true := by decide

/-! Decoding: words written out from R60 to R66, one for each constructor. -/

/-- 22201 = 01 + 2·100 + 2·1000 + 2·10000 (V-D51). -/
theorem test_decode_add :
    decode [22201, -2, -1, 0, 99] = .ok (.add ⟨.relative, -2⟩ ⟨.relative, -1⟩ ⟨.relative, 0⟩, [99]) := by decide
/-- 1002 = 02 + 0·100 + 1·1000 (V-D1). -/
theorem test_decode_mul :
    decode [1002, 16, 10, 16] = .ok (.mul ⟨.address, 16⟩ ⟨.immediate, 10⟩ ⟨.address, 16⟩, []) := by decide
/-- V-D7; the digit of weight 1000 is no operand's (V-D14). -/
theorem test_decode_inp :
    decode [203, 3] = .ok (.inp ⟨.relative, 3⟩, []) ∧ decode [1003, 0] = .ok (.inp ⟨.address, 0⟩, []) := by
  refine ⟨?_, ?_⟩ <;> decide
/-- V-D2. -/
theorem test_decode_out : decode [204, -1] = .ok (.out ⟨.relative, -1⟩, []) := by decide
/-- V-D4. -/
theorem test_decode_jt : decode [1105, 5, 4] = .ok (.jt ⟨.immediate, 5⟩ ⟨.immediate, 4⟩, []) := by decide
/-- V-D5. -/
theorem test_decode_jf : decode [2106, 0, 4] = .ok (.jf ⟨.immediate, 0⟩ ⟨.relative, 4⟩, []) := by decide
/-- V-D3. -/
theorem test_decode_lt :
    decode [21107, 3, 4, 5] = .ok (.lt ⟨.immediate, 3⟩ ⟨.immediate, 4⟩ ⟨.relative, 5⟩, []) := by decide
/-- The `EQ` of V-S5. -/
theorem test_decode_eq :
    decode [1008, 100, 16, 101] = .ok (.eq ⟨.address, 100⟩ ⟨.immediate, 16⟩ ⟨.address, 101⟩, []) := by decide
/-- V-D6. -/
theorem test_decode_arb : decode [109, 7] = .ok (.arb ⟨.immediate, 7⟩, []) := by decide
/-- V-D9, V-D11. -/
theorem test_decode_hlt : decode [99] = .ok (.hlt, []) ∧ decode [30099] = .ok (.hlt, []) := by
  refine ⟨?_, ?_⟩ <;> decide

/-- V-D15 to V-D20: rejected opcode words; the opcode is checked before any mode digit. -/
theorem test_decode_illegal_opcode :
    decode [0] = .error (.reject (.illegalOpcode 0)) ∧
    decode [10] = .error (.reject (.illegalOpcode 10)) ∧
    decode [98] = .error (.reject (.illegalOpcode 98)) ∧
    decode [-1] = .error (.reject (.illegalOpcode (-1))) ∧
    decode [-99] = .error (.reject (.illegalOpcode (-99))) ∧
    decode [398] = .error (.reject (.illegalOpcode 398)) := by
  refine ⟨?_, ?_, ?_, ?_, ?_, ?_⟩ <;> decide
/-- V-D21 to V-D26: rejected mode digits, before any operand word is missed. -/
theorem test_decode_illegal_mode :
    ∀ x ∈ ([(301, 1), (3001, 2), (30001, 3), (901, 1), (3303, 1), (304, 1)] : List (Word × Nat)),
      decode [x.1] = .error (.reject (.illegalMode x.1 x.2)) := by decide
theorem test_decode_missing_word : decode [1, 0, 0] = .error (.missingWord 3) := by decide

/-- The words of the fixed names: the table's `match` values; a 64-bit second word counts on from bit 64. -/
theorem test_decodeTableWord :
    decodeTableWord 64 99 = some .hlt ∧ decodeTableWord 8 4 = some (.out ⟨.address, 0⟩) ∧
    decodeTableWord 128 (104 + 7 * 2 ^ 64) = some (.out ⟨.immediate, 7⟩) ∧ decodeTableWord 64 98 = none := by
  refine ⟨?_, ?_, ?_, ?_⟩ <;> decide
theorem test_encode : encode (.add ⟨.relative, -2⟩ ⟨.immediate, -1⟩ ⟨.address, 0⟩) = [1201, -2, -1, 0] := by decide

/-! One step of each instruction, at most two tests each. -/

/-- V-D47 with `ADD`: one cell is both sources and the destination (V-S1). -/
theorem test_add_own_cell :
    seen (mach [1, 0, 0, 0, 99] []) (fun t => (t.readCell 0, t.engine.ip)) = some (2, 4) := by decide
/-- V-D32: MAX + 1 wraps to MIN. -/
theorem test_add_wraps :
    seen (mach [1101, 9223372036854775807, 1, 5, 99, 0] []) (fun t => (t.readCell 5, t.engine.ip)) =
      some (-9223372036854775808, 4) := by decide
/-- V-D40: the exact product passes 2^63. -/
theorem test_mul_wraps :
    seen (mach [1102, 3037000500, 3037000500, 5, 99, 0] []) (fun t => t.readCell 5) =
      some (-9223372036709301616) := by decide
/-- The second instruction of P6, run with `rb = 4`: all three operands Relative, 1·2 into cell 6. -/
theorem test_mul_relative :
    seen (sole { eng [109, 4, 22202, 0, 1, 2, 99, 0] with ip := 2, rb := 4 })
      (fun t => (t.readCell 6, t.engine.ip, t.engine.rb)) = some (2, 6, 4) := by decide
/-- V-S3: the input lands on its own opcode word, and is consumed. -/
theorem test_inp_consumes :
    seen (mach [3, 0, 4, 0, 99] [14, 15]) (fun t => (t.readCell 0, t.engine.ip, t.inputQueue)) =
      some (14, 2, [15]) := by decide
/-- V-D65: the destination is checked before the port is asked. -/
theorem test_inp_checks_first :
    seen (mach [3, -1, 99] [5]) (fun t => (t.engine.faultRecord?, t.inputQueue, t.engine.ip)) =
      some (some (.negativeAddress (-1) .write), [5], 0) := by decide
/-- V-D70. -/
theorem test_out_relative :
    seen (mach [204, 0, 99] []) (fun t => (t.engine.outlog, t.engine.ip)) = some ([204], 2) := by decide
/-- Stage 4 emits into stage 0's FIFO, behind what waits there (R125, R130). -/
theorem test_out_network :
    seen (net [104, 5, 99] ⟨[1], [], [], [], []⟩ [.s4]) (fun t => ((t.engineAt .s4).outlog, (t.from .s0).inputQueue)) =
      some ([5], [1, 5]) := by decide
/-- V-D80: the width is not added to a jump's target. -/
theorem test_jt_taken : seen (mach [1105, 5, 4, 99, 104, 1, 99] []) (fun t => t.engine.ip) = some 4 := by decide
/-- V-D86: not taken, and the bad target operand is not resolved. -/
theorem test_jt_not_taken :
    seen (mach [105, 0, -1, 99] []) (fun t => (t.engine.ip, t.engine.run)) = some (3, .running) := by decide
/-- V-D82. -/
theorem test_jf_taken : seen (mach [1106, 0, 4, 99, 104, 2, 99] []) (fun t => t.engine.ip) = some 4 := by decide
/-- V-D83: a negative value is not zero. -/
theorem test_jf_not_taken : seen (mach [1106, -1, 4, 99] []) (fun t => t.engine.ip) = some 3 := by decide
/-- V-D100: signed at the extremes. -/
theorem test_lt_signed :
    seen (mach [1107, -9223372036854775808, 9223372036854775807, 5, 99, 7] []) (fun t => t.readCell 5) = some 1 := by
  decide
/-- V-D102: equal values; the 0 is written. -/
theorem test_lt_equal : seen (mach [1107, 3, 3, 5, 99, 7] []) (fun t => t.readCell 5) = some 0 := by decide
/-- V-D110. -/
theorem test_eq_true : seen (mach [1008, 5, 7, 5, 99, 7] []) (fun t => t.readCell 5) = some 1 := by decide
/-- V-D106. -/
theorem test_eq_false : seen (mach [1108, -1, 1, 5, 99, 7] []) (fun t => t.readCell 5) = some 0 := by decide
/-- The second instruction of V-D126: `rb` wraps. -/
theorem test_arb_wraps :
    seen (sole { eng [109, 1, 99] with rb := 9223372036854775807 }) (fun t => (t.engine.rb, t.engine.ip)) =
      some (-9223372036854775808, 2) := by decide
/-- The second instruction of V-D124: the operand is read with the old `rb`. -/
theorem test_arb_old_base :
    seen (sole { eng [109, 2, 209, 2, 99] with ip := 2, rb := 2 }) (fun t => t.engine.rb) = some 101 := by decide
/-- V-D131. -/
theorem test_hlt : seen (mach [99] []) (fun t => (t.engine.run, t.engine.ip)) = some (.halted, 0) := by decide
/-- V-D132: a terminated engine does not step. -/
theorem test_hlt_stays :
    seen (sole { eng [99, 0, 0] with run := .halted }) id = some (sole { eng [99, 0, 0] with run := .halted }) := by
  decide

/-! Faults of one step. -/

/-- V-D130: the effective address is the exact sum, 2^64 - 2. -/
theorem test_exact_address :
    seen (sole { eng [204, 9223372036854775807, 99] with rb := 9223372036854775807 })
      (fun t => t.engine.faultRecord?) = some (some (.capacityExceeded 18446744073709551614 .read)) := by decide
/-- V-D144 and V-D143: the first operand's fault wins at execution, the missing operand word at decode. -/
theorem test_fault_order :
    seen (mach [10001, -1, 0, 0, 99] []) (fun t => t.engine.faultRecord?) =
      some (some (.negativeAddress (-1) .read)) ∧
    seen (mach [10001, 0, 0] []) (fun t => t.engine.faultRecord?) =
      some (some (.capacityExceeded 3 .fetch)) := by
  refine ⟨?_, ?_⟩ <;> decide
/-- Reset with nothing placed: the word 0 is no opcode (R68; log 2). -/
theorem test_reset_step :
    seen State.reset (fun t => (t.engine.faultRecord?, t.engine.ip)) = some (some (.illegalOpcode 0), 0) := by decide
/-- The word placed by `withFetchWord` is what runs first after reset. -/
theorem test_withFetchWord :
    seen (State.reset.withFetchWord 64 109) (fun t => (t.engine.rb, t.engine.ip)) = some (0, 2) ∧
    seen (State.reset.withFetchWord 128 (109 + 7 * 2 ^ 64)) (fun t => (t.engine.rb, t.engine.ip)) = some (7, 2) := by
  refine ⟨?_, ?_⟩ <;> decide
/-- A network steps the proposed stage, or the first enabled stage after it (log 4); here stages 1 and 2 wait. -/
theorem test_schedule :
    (net [3, 0, 99] ⟨[7], [], [], [8], []⟩ [.s1]).selectStage = some .s3 ∧
    (net [3, 0, 99] ⟨[7], [], [], [8], []⟩ [.s0]).selectStage = some .s0 := by
  refine ⟨?_, ?_⟩ <;> decide
/-- V-D162 at its end: every stage waits, and the machine stays. -/
theorem test_stuck : (net [3, 0, 99] ⟨[], [], [], [], []⟩ [.s0]).stuck = true := by decide

/-! Witnesses: for each obligation with hypotheses, a concrete state and operands that meet all of them together; for one
of several clauses, a witness for each clause, at the boundary of its range. -/

/-- One operand word, Address 0. -/
def p0 : Operand := ⟨.address, 0⟩
/-- `HLT` at an engine that has it at cell 0. -/
def hltMach : State := mach [99] []
/-- A network of which every stage runs `IN [0]`; stage 0 has a value, the others wait. -/
def inNet : State := net [3, 0, 99] ⟨[7], [], [], [], []⟩ [.s0]
/-- A network in which every stage waits. -/
def stuckNet : State := net [3, 0, 99] ⟨[], [], [], [], []⟩ [.s0]
/-- A network that is done: S[4] has emitted 5 and halted. -/
def doneNet : State :=
  { system :=
      .network ⟨eng [99], eng [99], eng [99], eng [99], { eng [99] with run := .halted, outlog := [5] }⟩
        ⟨[], [], [], [], []⟩,
    active := .s0, schedule := [.s0], turn := 0 }

theorem witness_DecodedFieldsAreTheDigits :
    decode [1002, 16, 10, 16, 7] = .ok (.mul ⟨.address, 16⟩ ⟨.immediate, 10⟩ ⟨.address, 16⟩, [7]) := by decide
theorem witness_UnexaminedDigitsAreIgnored :
    opcodeOf 99 = some .hlt ∧ 0 ≤ (30099 : Word).toInt ∧
      (99 : Word).toNat % 10 ^ (Opcode.hlt.arity + 2) = (30099 : Word).toNat % 10 ^ (Opcode.hlt.arity + 2) := by
  refine ⟨?_, ?_, ?_⟩ <;> decide
theorem witness_UnexaminedDigitsAreIgnored_operand :
    opcodeOf 3 = some .inp ∧ 0 ≤ (1003 : Word).toInt ∧
      (3 : Word).toNat % 10 ^ (Opcode.inp.arity + 2) = (1003 : Word).toNat % 10 ^ (Opcode.inp.arity + 2) := by
  refine ⟨?_, ?_, ?_⟩ <;> decide
/-- -1 and 10 on one side, 99 on the other. -/
theorem witness_IllegalOpcodeExactly :
    (mach [-1] []).fetchWord 0 = .ok (-1) ∧ (mach [10] []).fetchWord 0 = .ok 10 ∧
      (mach [99] []).fetchWord 0 = .ok 99 := by
  refine ⟨?_, ?_, ?_⟩ <;> decide
/-- Operand 1 (no lower operand) and operand 3 of `ADD`, none of whose operand words exists; the digit is 3. -/
theorem witness_IllegalModeOfTheLowestOperand :
    (mach [301] []).fetchWord 0 = .ok 301 ∧ opcodeOf 301 = some .add ∧ 3 ≤ (301 : Word).toNat / 10 ^ 2 % 10 ∧
    (mach [30001] []).fetchWord 0 = .ok 30001 ∧ opcodeOf 30001 = some .add ∧
      3 ≤ (30001 : Word).toNat / 10 ^ 4 % 10 ∧ (30001 : Word).toNat / 10 ^ 2 % 10 ≤ 2 ∧
      (30001 : Word).toNat / 10 ^ 3 % 10 ≤ 2 := by
  refine ⟨?_, ?_, ?_, ?_, ?_, ?_, ?_, ?_⟩ <;> decide
theorem witness_FetchFaultsInOrder_opcode :
    (mach [] []).fetchWord 0 = .error (.capacityExceeded 0 .fetch) := by decide
/-- V-D148: the third operand word. -/
theorem witness_FetchFaultsInOrder_operand :
    (mach [1101, 1, 2] []).fetchWord 0 = .ok 1101 ∧ opcodeOf 1101 = some .add ∧
    (∀ j, 1 ≤ j → j ≤ Opcode.add.arity → (1101 : Word).toNat / 10 ^ (j + 1) % 10 ≤ 2) ∧
    (∀ j, 1 ≤ j → j < 3 → ∃ v, (mach [1101, 1, 2] []).fetchWord j = .ok v) ∧
    (mach [1101, 1, 2] []).fetchWord 3 = .error (.capacityExceeded 3 .fetch) := by
  refine ⟨by decide, by decide, ?_, ?_, by decide⟩
  · intro j h1 h2
    change j ≤ 3 at h2
    interval_cases j <;> decide
  · intro j h1 h2
    interval_cases j
    · exact ⟨1, by decide⟩
    · exact ⟨2, by decide⟩
theorem witness_ImmediateDestinationFaultsAtExecution :
    (mach [10001, 0, 0, 0, 99] []).readable p0 = true ∧
      Instr.add p0 p0 ⟨.immediate, 0⟩ ∈
        [Instr.add p0 p0 ⟨.immediate, 0⟩, .mul p0 p0 ⟨.immediate, 0⟩, .lt p0 p0 ⟨.immediate, 0⟩,
          .eq p0 p0 ⟨.immediate, 0⟩] := by
  refine ⟨?_, ?_⟩ <;> decide
/-- The four boundary addresses of a capacity of 2. -/
theorem witness_MemReadChecksTheAddress :
    AccessKind.read ∈ [AccessKind.fetch, .read] ∧
    (mach [1, 99] []).memRead (-1) .read = .error (.negativeAddress (-1) .read) ∧
    (mach [1, 99] []).memRead 0 .fetch = .ok 1 ∧ (mach [1, 99] []).memRead 1 .read = .ok 99 ∧
    (mach [1, 99] []).memRead 2 .fetch = .error (.capacityExceeded 2 .fetch) := by
  refine ⟨?_, ?_, ?_, ?_, ?_⟩ <;> decide
theorem witness_MemWriteChangesOneCell :
    (mach [1, 99] []).engine.mem.wf = true ∧
    (after ((mach [1, 99] []).commit ((mach [1, 99] []).memWrite 0 0))).map (fun t => t.engine.mem) = some [(1, 99)] ∧
    (after ((mach [1, 99] []).commit ((mach [1, 99] []).memWrite 1 7))).map (fun t => t.readCell 1) = some 7 ∧
    (after ((mach [1, 99] []).commit ((mach [1, 99] []).memWrite (-1) 7))).map (fun t => t.engine.record) =
      some (.negativeAddress (-1) .write) ∧
    (after ((mach [1, 99] []).commit ((mach [1, 99] []).memWrite 2 7))).map (fun t => t.engine.record) =
      some (.capacityExceeded 2 .write) := by
  refine ⟨?_, ?_, ?_, ?_, ?_⟩ <;> decide
theorem witness_CanonicalMemoryIsUnique :
    Memory.wf [(0, 1), (2, 5)] = true ∧ (Memory.write (Memory.write [] 2 5) 0 1).wf = true ∧
    ∀ a, Memory.read [(0, 1), (2, 5)] a = Memory.read (Memory.write (Memory.write [] 2 5) 0 1) a :=
  ⟨by decide, by decide, fun _ => rfl⟩
/-- Both modes at the four boundary addresses of a capacity of 2; Relative with `rb = 1`. -/
theorem witness_DestinationOperandAddress :
    (sole { eng [1, 99] with rb := 1 }).target 3 ⟨.relative, -2⟩ = .error (.negativeAddress (-1) .write) ∧
    (sole { eng [1, 99] with rb := 1 }).target 3 ⟨.relative, -1⟩ = .ok 0 ∧
    (sole { eng [1, 99] with rb := 1 }).target 3 ⟨.relative, 1⟩ = .error (.capacityExceeded 2 .write) ∧
    (mach [1, 99] []).target 1 ⟨.address, -1⟩ = .error (.negativeAddress (-1) .write) ∧
    (mach [1, 99] []).target 1 ⟨.address, 1⟩ = .ok 1 ∧
    (mach [1, 99] []).target 1 ⟨.address, 2⟩ = .error (.capacityExceeded 2 .write) := by
  refine ⟨?_, ?_, ?_, ?_, ?_, ?_⟩ <;> decide
theorem witness_StoreIsSeenByTheNextFetch :
    (sole { eng [1, 99] with ip := 1 }).engine.mem.wf = true ∧ 1 < (sole { eng [1, 99] with ip := 1 }).engine.memWords ∧
    (sole { eng [1, 99] with ip := 1 }).engine.ip.toInt = (1 : Nat) := by
  refine ⟨?_, ?_, ?_⟩ <;> decide

/-- A single engine and a network, each with an instruction and with a fault of decode. -/
theorem witness_StepRunsTheDecodedInstruction :
    hltMach.selectStage = some .s0 ∧ (hltMach.turnTo .s0).fetchInstr = .ok .hlt ∧ hltMach.isNetwork = false ∧
    (mach [0] []).selectStage = some .s0 ∧
      ((mach [0] []).turnTo .s0).fetchInstr = .error (.illegalOpcode 0) ∧
    inNet.selectStage = some .s0 ∧ (inNet.turnTo .s0).fetchInstr = .ok (.inp ⟨.address, 0⟩) ∧ inNet.isNetwork = true := by
  refine ⟨?_, ?_, ?_, ?_, ?_, ?_, ?_, ?_⟩ <;> decide
/-- `HLT` in the last cell. -/
theorem witness_CellsAtIpAreTheInstructionRun :
    0 ≤ (sole { eng [0, 99] with ip := 1 }).engine.ip.toInt ∧
    (sole { eng [0, 99] with ip := 1 }).engine.ip.toInt + Instr.hlt.width ≤
      (sole { eng [0, 99] with ip := 1 }).engine.memWords ∧
    (∀ j w, (encode .hlt)[j]? = some w →
      (sole { eng [0, 99] with ip := 1 }).readCell
        ((sole { eng [0, 99] with ip := 1 }).engine.ip.toInt.toNat + j) = w) ∧
    (sole { eng [0, 99] with ip := 1 }).isNetwork = false ∧
    (sole { eng [0, 99] with ip := 1 }).engine.run = .running := by
  refine ⟨by decide, by decide, ?_, by decide, by decide⟩
  intro j w h
  match j, h with
  | 0, h => cases h; decide
theorem witness_EnabledExactlyWhenNotWaiting :
    hltMach.system = .single (eng [99]) [] ∧
    inNet.system = .network ⟨eng [3, 0, 99], eng [3, 0, 99], eng [3, 0, 99], eng [3, 0, 99], eng [3, 0, 99]⟩
      ⟨[7], [], [], [], []⟩ ∧ inNet.enabled .s0 = true ∧ inNet.enabled .s1 = false := by
  refine ⟨rfl, rfl, ?_, ?_⟩ <;> decide
theorem witness_AnyEnabledStageMayStepNext :
    inNet.isNetwork = true ∧ inNet.enabled .s0 = true ∧ inNet.selectStage = some .s0 ∧
      stuckNet.isNetwork = true ∧ stuckNet.selectStage = none := by
  refine ⟨?_, ?_, ?_, ?_, ?_⟩ <;> decide
theorem witness_NoEnabledStepKeepsTheState :
    stuckNet.selectStage = none ∧ (sole { eng [99] with run := .halted }).selectStage = none ∧
    (sole { eng [99] with run := .halted }).system = .single { eng [99] with run := .halted } [] := by
  refine ⟨?_, ?_, rfl⟩ <;> decide

/-- The hypotheses of `AddStoresTheWrappedSum`, `MulStoresTheWrappedProduct`, `LtStoresTheSignedComparison` and
`EqStoresTheEquality`: the last cell, an Immediate and a Relative operand. -/
theorem witness_storing :
    (mach [1, 0, 0, 0, 99] []).engine.mem.wf = true ∧ (mach [1, 0, 0, 0, 99] []).readable ⟨.address, 4⟩ = true ∧
    (mach [1, 0, 0, 0, 99] []).readable ⟨.immediate, -9⟩ = true ∧
    (mach [1, 0, 0, 0, 99] []).writable ⟨.relative, 4⟩ = true := by
  refine ⟨?_, ?_, ?_, ?_⟩ <;> decide
theorem witness_InStoresTheOldestInput :
    (mach [3, 0, 99] [7]).engine.mem.wf = true ∧ (mach [3, 0, 99] [7]).writable p0 = true ∧
    (mach [3, 0, 99] [7]).inputQueue = [7] ∧ inNet.engine.mem.wf = true ∧ inNet.writable p0 = true ∧
    inNet.inputQueue = [7] := by
  refine ⟨?_, ?_, ?_, ?_, ?_, ?_⟩ <;> decide
/-- A bad destination; an empty Buffered input; an empty open FIFO. -/
theorem witness_InWithoutAValue :
    (mach [3, -1, 99] []).target 1 ⟨.address, -1⟩ = .error (.negativeAddress (-1) .write) ∧
    (mach [3, 0, 99] []).writable p0 = true ∧ (mach [3, 0, 99] []).inputQueue = [] ∧
      (mach [3, 0, 99] []).inputClosed = true ∧
    stuckNet.writable p0 = true ∧ stuckNet.inputQueue = [] ∧ stuckNet.inputClosed = false := by
  refine ⟨?_, ?_, ?_, ?_, ?_, ?_, ?_⟩ <;> decide
theorem witness_OutEmitsTheValueOnce :
    hltMach.readable p0 = true ∧ hltMach.system = .single (eng [99]) [] ∧ inNet.readable p0 = true ∧
    inNet.system = .network ⟨eng [3, 0, 99], eng [3, 0, 99], eng [3, 0, 99], eng [3, 0, 99], eng [3, 0, 99]⟩
      ⟨[7], [], [], [], []⟩ := by
  refine ⟨?_, rfl, ?_, rfl⟩ <;> decide
/-- The hypotheses of `JtJumpsOnNonZero` and `JfJumpsOnZero`: the conditions -1 and 0. -/
theorem witness_jumps :
    hltMach.val ⟨.immediate, -1⟩ = .ok (-1) ∧ (-1 : Word) ≠ 0 ∧ hltMach.val ⟨.immediate, 0⟩ = .ok 0 ∧
    hltMach.readable p0 = true := by
  refine ⟨?_, ?_, ?_, ?_⟩ <;> decide
theorem witness_ArbAddsToTheRelativeBase : hltMach.readable p0 = true := by decide

/-- `StoringInstructionsFrame` and `SideEffectsAreBounded`: an `ADD` that stores, and one that faults. -/
theorem witness_StoringInstructionsFrame :
    exec (.add p0 p0 p0) (mach [1, 0, 0, 0, 99] []) =
      .next (((mach [1, 0, 0, 0, 99] []).storeCell 0 2).advance 4) ∧
    exec (.add p0 p0 ⟨.immediate, 0⟩) (mach [1, 0, 0, 0, 99] []) =
      .next ((mach [1, 0, 0, 0, 99] []).raise (.writeToImmediate 3)) := ⟨rfl, rfl⟩
/-- `InFrame` and `SideEffectsAreBounded`: a value taken, starvation, and a wait. -/
theorem witness_InFrame :
    exec (.inp p0) (mach [3, 0, 99] [7]) =
      .next ((((mach [3, 0, 99] [7]).withInputQueue []).storeCell 0 7).advance 2) ∧
    exec (.inp p0) (mach [3, 0, 99] []) = .next ((mach [3, 0, 99] []).raise .inputStarvation) ∧
    exec (.inp p0) stuckNet = .next stuckNet := ⟨rfl, rfl, rfl⟩
/-- `NonStoringInstructionsFrame` and `SideEffectsAreBounded`: each of the five. -/
theorem witness_NonStoringInstructionsFrame :
    exec (.out p0) hltMach = .next ((hltMach.emitOutput 99).advance 2) ∧
    exec (.jt p0 p0) hltMach = .next (hltMach.setIp 99) ∧ exec (.jf p0 p0) hltMach = .next (hltMach.advance 3) ∧
    exec (.arb p0) hltMach = .next ((hltMach.adjustRb 99).advance 2) ∧
    exec .hlt hltMach = .next hltMach.halt := ⟨rfl, rfl, rfl, rfl, rfl⟩

theorem witness_BufferedPortOperations :
    (mach [99] []).system = .single (eng [99]) [] ∧ (mach [99] [7, 8]).system = .single (eng [99]) [7, 8] := ⟨rfl, rfl⟩
/-- A value waits at stage 0; stage 1's FIFO is empty and open; stage 0's is empty and closed once S[4] has halted. -/
theorem witness_ChannelPortOperations :
    (inNet.from .s0).inputQueue = [7] ∧ (inNet.from .s1).inputQueue = [] ∧ (inNet.from .s1).inputClosed = false ∧
    (doneNet.from .s0).inputQueue = [] ∧ (doneNet.from .s0).inputClosed = true ∧
    ∃ st f, doneNet.system = .network st f := by
  refine ⟨?_, ?_, ?_, ?_, ?_, _, _, rfl⟩ <;> decide
theorem witness_FaultEntryChangesOnlyTheRecord :
    hltMach.system = .single (eng [99]) [] ∧ ∃ st f, inNet.system = .network st f := ⟨rfl, _, _, rfl⟩
theorem witness_FaultsArePrecise :
    (mach [0] []).selectStage = some .s0 ∧
    step (mach [0] []) = .next ((mach [0] []).raise (.illegalOpcode 0)) ∧
    (((mach [0] []).raise (.illegalOpcode 0)).engineAt .s0).run = .faulted := by
  refine ⟨?_, rfl, ?_⟩ <;> decide
theorem witness_StoringFaultsInOperandOrder :
    hltMach.val ⟨.address, -1⟩ = .error (.negativeAddress (-1) .read) ∧ hltMach.readable p0 = true ∧
    hltMach.val ⟨.address, 1⟩ = .error (.capacityExceeded 1 .read) ∧
    hltMach.target 3 ⟨.immediate, 0⟩ = .error (.writeToImmediate 3) ∧
    hltMach.target 3 ⟨.address, 1⟩ = .error (.capacityExceeded 1 .write) := by
  refine ⟨?_, ?_, ?_, ?_, ?_⟩ <;> decide
theorem witness_SourceOperandFaults :
    hltMach.val ⟨.address, 1⟩ = .error (.capacityExceeded 1 .read) ∧ hltMach.val p0 = .ok 99 ∧ (99 : Word) ≠ 0 ∧
    hltMach.val ⟨.immediate, 0⟩ = .ok 0 := by
  refine ⟨?_, ?_, ?_, ?_⟩ <;> decide
/-- `ip = -1` and `ip = MEM_WORDS`. -/
theorem witness_FetchOutsideMemoryFaults :
    (sole { eng [99] with ip := -1 }).system = .single { eng [99] with ip := -1 } [] ∧
    ({ eng [99] with ip := -1 } : Engine).run = .running ∧ (-1 : Word).toInt < 0 ∧
    (sole { eng [99] with ip := 1 }).system = .single { eng [99] with ip := 1 } [] ∧
    ({ eng [99] with ip := 1 } : Engine).run = .running ∧ ((eng [99]).memWords : Int) ≤ (1 : Word).toInt := by
  refine ⟨rfl, ?_, ?_, rfl, ?_, ?_⟩ <;> decide

/-- A program that just fits, and the largest legal capacity. -/
theorem witness_ResetEstablishesTheTable :
    [(99 : Word)].length ≤ 1 ∧ 1 ≤ 2 ^ 62 ∧ [(99 : Word)].length ≤ 2 ^ 62 ∧ 2 ^ 62 ≤ 2 ^ 62 := by
  refine ⟨?_, ?_, ?_, ?_⟩ <;> decide
/-- The two ways out of bounds, each by one word. -/
theorem witness_ArgumentsOutOfBoundsBuildNoMachine :
    ¬ ([(99 : Word)].length ≤ 0 ∧ 0 ≤ 2 ^ 62) ∧ ¬ ([(99 : Word)].length ≤ 2 ^ 62 + 1 ∧ 2 ^ 62 + 1 ≤ 2 ^ 62) := by
  refine ⟨?_, ?_⟩ <;> decide
theorem witness_ResetMeetsTheInvariant :
    State.singleReset [99] 1 [] = some hltMach ∧
    State.networkReset [3, 0, 99] 3 ⟨9, 8, 7, 6, 5⟩ [.s0] =
      some (net [3, 0, 99] ⟨[9, 0], [8], [7], [6], [5]⟩ [.s0]) := by
  refine ⟨?_, ?_⟩ <;> decide
/-- `StepKeepsTheInvariant` and `CapacityNeverChanges`. -/
theorem witness_StepKeepsTheInvariant :
    (mach [1, 0, 0, 0, 99] []).inv = true ∧
    step (mach [1, 0, 0, 0, 99] []) = .next (((mach [1, 0, 0, 0, 99] []).storeCell 0 2).advance 4) := by
  refine ⟨?_, rfl⟩; decide
/-- S[4] has halted, and stage 0 steps. -/
theorem witness_TerminatedEngineNeverChanges :
    (doneNet.engineAt .s4).run ≠ .running ∧ step doneNet = .next (doneNet.turnTo .s0).halt := by
  refine ⟨?_, rfl⟩; decide
theorem witness_OnlyHltHalts :
    hltMach.engine.run = .running ∧ exec .hlt hltMach = .next hltMach.halt ∧
    exec (.arb p0) hltMach = .next ((hltMach.adjustRb 99).advance 2) := ⟨rfl, rfl, rfl⟩
theorem witness_AdvanceOfIpNeverWraps : hltMach.inv = true ∧ hltMach.fetchInstr = .ok .hlt := by
  refine ⟨?_, ?_⟩ <;> decide
/-- `StagesArePrivate` and `FifosKeepOrderAndLoseNothing`: stage 0 takes its 7, stage 1 is another stage. -/
theorem witness_StagesArePrivate :
    inNet.isNetwork = true ∧ inNet.selectStage = some .s0 ∧ Stage.s1 ≠ .s0 ∧ (∃ st f, inNet.system = .network st f) ∧
    step inNet = .next ((((inNet.turnTo .s0).withInputQueue []).storeCell 0 7).advance 2) := by
  refine ⟨?_, ?_, ?_, ⟨_, _, rfl⟩, rfl⟩ <;> decide
/-- `ClosedIsTheProducersEndAndStays` and `NetworkResultIsSettledWhenDone`: a network that is done takes a step. -/
theorem witness_NetworkResultIsSettledWhenDone :
    (∃ st f, doneNet.system = .network st f) ∧ step doneNet = .next (doneNet.turnTo .s0).halt ∧
    (∃ st f, (doneNet.turnTo .s0).halt.system = .network st f) ∧ doneNet.networkDone = true ∧
    (doneNet.from .s0).inputClosed = true ∧ doneNet.networkResult = some 5 ∧ inNet.networkDone = false := by
  refine ⟨⟨_, _, rfl⟩, rfl, ⟨_, _, rfl⟩, ?_, ?_, ?_, ?_⟩ <;> decide
theorem witness_StuckNetworkStaysWithoutResult :
    (∃ st f, stuckNet.system = .network st f) ∧ stuckNet.stuck = true := by
  refine ⟨⟨_, _, rfl⟩, ?_⟩; decide
/-- Two networks that differ in stage 2 only, seen from stage 0. -/
theorem witness_StageSeesOnlyItsOwnInputs :
    (inNet.engineAt .s0) = ((inNet.withEngineAt .s2 (eng [99])).engineAt .s0) ∧
    (inNet.from .s0).inputQueue = ((inNet.withEngineAt .s2 (eng [99])).from .s0).inputQueue ∧
    (inNet.from .s0).inputClosed = ((inNet.withEngineAt .s2 (eng [99])).from .s0).inputClosed ∧
    inNet ≠ inNet.withEngineAt .s2 (eng [99]) ∧
    (inNet.from .s0).stepActive = .next ((((inNet.from .s0).withInputQueue []).storeCell 0 7).advance 2) := by
  refine ⟨?_, ?_, ?_, ?_, rfl⟩ <;> decide
/-- Stage 4 emits into the FIFO that stage 0 reads. -/
theorem witness_EnabledStagesCommute :
    (net [104, 5, 99] ⟨[1], [], [], [], []⟩ []).isNetwork = true ∧ Stage.s4 ≠ .s0 ∧
    (net [104, 5, 99] ⟨[1], [], [], [], []⟩ []).enabled .s4 = true ∧
    (net [104, 5, 99] ⟨[1], [], [], [], []⟩ []).enabled .s0 = true ∧
    (∃ t, ((net [104, 5, 99] ⟨[1], [], [], [], []⟩ []).from .s4).stepActive = .next t) ∧
    (∃ t, ((net [104, 5, 99] ⟨[1], [], [], [], []⟩ []).from .s0).stepActive = .next t) := by
  refine ⟨?_, ?_, ?_, ?_, ⟨_, rfl⟩, ⟨_, rfl⟩⟩ <;> decide
/-- The network of `HLT`s, stepped in two orders; every stage has then terminated. -/
theorem witness_ResultIsIndependentOfTheSchedule :
    (net [99] ⟨[], [], [], [], []⟩ []).isNetwork = true ∧
    ((net [99] ⟨[], [], [], [], []⟩ []).runStages [.s0, .s1, .s2, .s3, .s4]).map
      (fun t => [Stage.s0, .s1, .s2, .s3, .s4].all fun k => !t.enabled k) = some true ∧
    ((net [99] ⟨[], [], [], [], []⟩ []).runStages [.s4, .s3, .s2, .s1, .s0]).map
      (fun t => [Stage.s0, .s1, .s2, .s3, .s4].all fun k => !t.enabled k) = some true := by
  refine ⟨?_, ?_, ?_⟩ <;> decide

end Sys2Proof.Tests
end

section
/-! Reset, read by its arguments: which arguments are legal, and that each reset function builds nothing exactly from
arguments that are not. -/

namespace Sys2Proof.Machine

theorem resetArgsLegal_iff (prog : List Word) (memWords : Nat) :
    resetArgsLegal prog memWords ↔ prog.length ≤ memWords ∧ memWords ≤ Config.maxMemWords := by
  simp only [resetArgsLegal, Bool.and_eq_true, decide_eq_true_eq]

theorem State.singleReset_eq_none_iff (prog : List Word) (memWords : Nat) (inInit : List Word) :
    State.singleReset prog memWords inInit = none ↔ ¬ resetArgsLegal prog memWords := by
  simp [State.singleReset]

theorem State.networkReset_eq_none_iff (prog : List Word) (memWords : Nat) (phase : PerStage Word)
    (sched : List Stage) :
    State.networkReset prog memWords phase sched = none ↔ ¬ resetArgsLegal prog memWords := by
  simp [State.networkReset]

/-- Settles O46: out of bounds is the test that both reset functions make before they build anything. -/
theorem argumentsOutOfBoundsBuildNoMachine : Obligations.ArgumentsOutOfBoundsBuildNoMachine := by
  unfold Obligations.ArgumentsOutOfBoundsBuildNoMachine
  intro prog memWords inInit phase sched outOfBounds
  have illegal : ¬ resetArgsLegal prog memWords := mt (resetArgsLegal_iff prog memWords).mp outOfBounds
  exact ⟨(State.singleReset_eq_none_iff prog memWords inInit).mpr illegal,
    (State.networkReset_eq_none_iff prog memWords phase sched).mpr illegal⟩

end Sys2Proof.Machine
end

section
/-! What one instruction and one step leave alone: the frame around the active engine (`ExecFrame`), and which engines a
step can change at all. -/

namespace Sys2Proof.Machine

/-- What an instruction does to the state around the active engine: nothing, or the oldest input value is taken, or the
value it logs goes downstream. -/
inductive ExecFrame (s : State) : State → Prop
  | engineOnly (e : Engine) : ExecFrame s (s.withEngine e)
  | takesInput (e : Engine) (x : Word) (rest : List Word) (hq : s.inputQueue = x :: rest) :
      ExecFrame s ((s.withInputQueue rest).withEngine e)
  | sendsValue (e : Engine) (v : Word) (hlog : e.outlog = s.engine.outlog ++ [v]) :
      ExecFrame s ((s.sendDownstream v).withEngine e)

/-- The two engine updates of a storing instruction are one. -/
theorem State.storeCell_advance (s : State) (a : Nat) (v : Word) (n : Nat) :
    (s.storeCell a v).advance n =
      s.withEngine { s.engine with mem := s.engine.mem.write a v, ip := wrap64 (s.engine.ip.toInt + n) } := by
  simp [State.storeCell, State.advance, State.setIp]

/-- The engine updates of `ARB` are one. -/
theorem State.adjustRb_advance (s : State) (d : Word) (n : Nat) :
    (s.adjustRb d).advance n =
      s.withEngine { s.engine with rb := wrap64 (s.engine.rb.toInt + d.toInt), ip := wrap64 (s.engine.ip.toInt + n) } := by
  simp [State.adjustRb, State.setRb, State.advance, State.setIp]

/-- The value goes downstream and the engine updates of `OUT` are one. -/
theorem State.emitOutput_advance (s : State) (v : Word) (n : Nat) :
    (s.emitOutput v).advance n =
      (s.sendDownstream v).withEngine
        { s.engine with outlog := s.engine.outlog ++ [v], ip := wrap64 (s.engine.ip.toInt + n) } := by
  simp [State.emitOutput, State.appendLog, State.advance, State.setIp, ← State.sendDownstream_withEngine]

/-- Every instruction has such a frame. -/
theorem ExecCase.frame {i : Instr} {s t : State} (h : ExecCase i s t) : ExecFrame s t := by
  cases h with
  | fault r hr => exact .engineOnly _
  | store p a v hd ht =>
    rw [State.storeCell_advance]
    exact .engineOnly _
  | input p a x rest hi ht hq =>
    rw [State.storeCell_advance]
    exact .takesInput _ x rest hq
  | blocked p a hi ht hq hc =>
    have unchanged : ExecFrame s (s.withEngine s.engine) := .engineOnly _
    rwa [State.withEngine_engine_self] at unchanged
  | output p x hi hv =>
    rw [State.emitOutput_advance]
    exact .sendsValue _ x rfl
  | jump p1 p2 a hi hv => exact .engineOnly _
  | fallThrough p1 p2 hi => exact .engineOnly _
  | adjust p d hi hv =>
    rw [State.adjustRb_advance]
    exact .engineOnly _
  | halt hi => exact .engineOnly _

/-- An engine read after an update of the active one: as before, or it was the active one. -/
theorem State.withEngine_engineAt_cases (s : State) (e : Engine) (k : Stage) :
    (s.withEngine e).engineAt k = s.engineAt k ∨ (s.engineAt k = s.engine ∧ (s.withEngine e).engineAt k = e) := by
  cases hs : s.system with
  | single e0 q =>
    exact .inr ⟨by simp [State.engine, State.engineAt_single hs],
      State.engineAt_single (State.withEngine_system_single hs e) k⟩
  | network st f =>
    by_cases hk : k = s.active
    · subst hk
      exact .inr ⟨rfl, s.withEngineAt_engineAt _ e⟩
    · exact .inl (State.withEngineAt_engineAt_ne hs hk e)

/-- An instruction changes no engine but the active one (R52, R132). -/
theorem ExecFrame.engineAt_cases {s t : State} (h : ExecFrame s t) (k : Stage) :
    t.engineAt k = s.engineAt k ∨ (s.engineAt k = s.engine ∧ t.engineAt k = t.engine) := by
  cases h with
  | engineOnly e => simpa using s.withEngine_engineAt_cases e k
  | takesInput e x rest hq => simpa using (s.withInputQueue rest).withEngine_engineAt_cases e k
  | sendsValue e v hlog => simpa using (s.sendDownstream v).withEngine_engineAt_cases e k

/-- A stage that is selected to step is Running (R24, R86). -/
theorem State.selectStage_running {s : State} {k : Stage} (h : s.selectStage = some k) :
    (s.engineAt k).run = .running := by
  have enabled := State.selectStage_enabled h
  simp only [State.enabled, Engine.terminated, Bool.and_eq_true, Bool.not_eq_true', decide_eq_false_iff_not,
    not_not] at enabled
  exact enabled.1

/-- One step keeps the state or is a case of `exec` at the selected stage. A fault of decode is the same fault entry as
that of an instruction, whichever it is. -/
theorem step_execCase {s t : State} (h : step s = .next t) :
    (s.selectStage = none ∧ t = s) ∨ ∃ k i, s.selectStage = some k ∧ ExecCase i (s.turnTo k) t := by
  rcases step_cases h with idle | ⟨k, hk, -, ⟨i, -, hi⟩ | ⟨r, -, hr, rfl⟩⟩
  · exact .inl idle
  · exact .inr ⟨k, i, hk, hi⟩
  · exact .inr ⟨k, .hlt, hk, .fault r hr⟩

/-- A step changes no engine but that of the selected stage. -/
theorem step_engineAt_cases {s t : State} (h : step s = .next t) (j : Stage) :
    t.engineAt j = s.engineAt j ∨
      ∃ k i, s.selectStage = some k ∧ ExecCase i (s.turnTo k) t ∧
        s.engineAt j = s.engineAt k ∧ t.engineAt j = t.engine := by
  rcases step_execCase h with ⟨-, rfl⟩ | ⟨k, i, hk, hi⟩
  · exact .inl rfl
  · rcases hi.frame.engineAt_cases j with same | ⟨hs, ht⟩
    · exact .inl (by simpa using same)
    · refine .inr ⟨k, i, hk, hi, ?_, ht⟩
      rwa [State.turnTo_engineAt, State.turnTo_engine] at hs

end Sys2Proof.Machine
end

section
/-! The invariant (R25, R27, R45): what keeps it engine by engine, every step, and every reset. -/

namespace Sys2Proof.Machine

/-- A store into a cell of the engine keeps its invariant (R44), wherever `ip` goes on. -/
theorem Engine.inv_write {e : Engine} (h : e.inv = true) {a : Nat} (ha : a < e.memWords) (v ip : Word) :
    Engine.inv { e with mem := e.mem.write a v, ip := ip } = true := by
  obtain ⟨wf, below, capacity, cause⟩ := e.inv_iff.mp h
  exact (Engine.inv_iff _).mpr ⟨Memory.wf_write wf a v, Memory.below_write _ below ha v, capacity, cause⟩

/-- A fault entry with one of the six causes keeps the invariant (R146). -/
theorem Engine.inv_faulted {e : Engine} (h : e.inv = true) {r : FaultRecord} (hr : r ≠ .unwritten) :
    Engine.inv { e with run := .faulted, record := r } = true := by
  obtain ⟨wf, below, capacity, -⟩ := e.inv_iff.mp h
  exact (Engine.inv_iff _).mpr ⟨wf, below, capacity, fun _ => hr⟩

/-- An engine that is not Faulted owes no cause (R25). -/
theorem Engine.inv_halted {e : Engine} (h : e.inv = true) : Engine.inv { e with run := .halted } = true := by
  obtain ⟨wf, below, capacity, -⟩ := e.inv_iff.mp h
  exact (Engine.inv_iff _).mpr ⟨wf, below, capacity, nofun⟩

/-- The invariant does not see `ip`, `rb` and the log. -/
theorem Engine.inv_registers (e : Engine) (ip rb : Word) (log : List Word) :
    Engine.inv { e with ip := ip, rb := rb, outlog := log } = e.inv := rfl

/-- Every instruction keeps the invariant of the engine that executes it. -/
theorem ExecCase.engine_inv {i : Instr} {s t : State} (h : ExecCase i s t) (hs : s.engine.inv = true) :
    t.engine.inv = true := by
  cases h with
  | fault r hr =>
    rw [State.raise_engine]
    exact Engine.inv_faulted hs hr
  | store p a v hd ht =>
    rw [State.storeCell_advance, State.withEngine_engine]
    exact Engine.inv_write hs (State.target_ok ht) v _
  | input p a x rest hi ht hq =>
    rw [State.storeCell_advance, State.withEngine_engine, State.withInputQueue_engine]
    exact Engine.inv_write hs (State.target_ok ht) x _
  | blocked p a hi ht hq hc => exact hs
  | output p x hi hv =>
    rwa [State.emitOutput_advance, State.withEngine_engine, Engine.inv_registers]
  | jump p1 p2 a hi hv =>
    rwa [State.setIp_engine, Engine.inv_registers]
  | fallThrough p1 p2 hi =>
    rwa [State.advance_engine, Engine.inv_registers]
  | adjust p d hi hv =>
    rwa [State.adjustRb_advance, State.withEngine_engine, Engine.inv_registers]
  | halt hi =>
    rw [State.halt_engine]
    exact Engine.inv_halted hs

/-- Settles O48: an engine the step changes is the one that executed, and no instruction breaks its invariant. -/
theorem stepKeepsTheInvariant : Obligations.StepKeepsTheInvariant := by
  unfold Obligations.StepKeepsTheInvariant
  intro s t hs hstep
  rw [State.inv_iff] at hs ⊢
  intro j
  rcases step_engineAt_cases hstep j with same | ⟨k, i, -, hi, -, ht⟩
  · rw [same]
    exact hs j
  · rw [ht]
    refine hi.engine_inv ?_
    rw [State.turnTo_engine]
    exact hs k

/-- An engine built within the bounds meets the invariant (R33). -/
theorem Engine.reset_inv {prog : List Word} {memWords : Nat} (legal : resetArgsLegal prog memWords) :
    (Engine.reset prog memWords).inv = true := by
  obtain ⟨fits, capacity⟩ := (resetArgsLegal_iff prog memWords).mp legal
  exact (Engine.inv_iff _).mpr
    ⟨Memory.wf_ofImage prog, Memory.below_ofImageFrom prog 0 memWords (by omega), capacity, nofun⟩

/-- What `singleReset` builds, from legal arguments only (R33). -/
theorem State.singleReset_eq_some {prog : List Word} {memWords : Nat} {inInit : List Word} {s : State}
    (h : State.singleReset prog memWords inInit = some s) :
    resetArgsLegal prog memWords ∧ s.system = .single (Engine.reset prog memWords) inInit := by
  simp only [State.singleReset, Option.ite_none_right_eq_some, Option.some.injEq] at h
  obtain ⟨legal, rfl⟩ := h
  exact ⟨legal, rfl⟩

/-- What `networkReset` builds, from legal arguments only (R131). -/
theorem State.networkReset_eq_some {prog : List Word} {memWords : Nat} {phase : PerStage Word} {sched : List Stage}
    {s : State} (h : State.networkReset prog memWords phase sched = some s) :
    resetArgsLegal prog memWords ∧ (∀ k, s.engineAt k = Engine.reset prog memWords) ∧
      ∃ st, s.system = .network st ⟨[phase.s0, Config.seed], [phase.s1], [phase.s2], [phase.s3], [phase.s4]⟩ := by
  simp only [State.networkReset, Option.ite_none_right_eq_some, Option.some.injEq] at h
  obtain ⟨legal, rfl⟩ := h
  exact ⟨legal, fun k => by cases k <;> rfl, _, rfl⟩

/-- Settles O47: all engines that reset builds are `Engine.reset` of legal arguments. -/
theorem resetMeetsTheInvariant : Obligations.ResetMeetsTheInvariant := by
  unfold Obligations.ResetMeetsTheInvariant
  have single : ∀ prog memWords inInit s, State.singleReset prog memWords inInit = some s → s.inv = true := by
    intro prog memWords inInit s h
    obtain ⟨legal, hs⟩ := State.singleReset_eq_some h
    refine s.inv_iff.mpr fun k => ?_
    rw [State.engineAt_single hs]
    exact Engine.reset_inv legal
  have hostReset : State.singleReset [] (2 ^ 62) [] = some State.reset := rfl
  refine ⟨single _ _ _ _ hostReset, hostReset, single, ?_⟩
  intro prog memWords phase sched s h
  obtain ⟨legal, hs, -⟩ := State.networkReset_eq_some h
  refine s.inv_iff.mpr fun k => ?_
  rw [hs k]
  exact Engine.reset_inv legal

end Sys2Proof.Machine
end

section
/-! Reset, read piece by piece (R33, R131). -/

namespace Sys2Proof.Machine

/-- Legal arguments build a single engine (R33). -/
theorem State.exists_singleReset {prog : List Word} {memWords : Nat} (legal : resetArgsLegal prog memWords)
    (inInit : List Word) : ∃ s, State.singleReset prog memWords inInit = some s :=
  Option.ne_none_iff_exists'.mp fun h => (State.singleReset_eq_none_iff prog memWords inInit).mp h legal

/-- Legal arguments build a network (R131). -/
theorem State.exists_networkReset {prog : List Word} {memWords : Nat} (legal : resetArgsLegal prog memWords)
    (phase : PerStage Word) (sched : List Stage) : ∃ s, State.networkReset prog memWords phase sched = some s :=
  Option.ne_none_iff_exists'.mp fun h => (State.networkReset_eq_none_iff prog memWords phase sched).mp h legal

/-- After reset a cell holds the program's word, or 0 beyond the program (R33, R46). -/
@[simp] theorem Engine.reset_read (prog : List Word) (memWords a : Nat) :
    (Engine.reset prog memWords).mem.read a = prog.getD a 0 := by
  simp [Engine.reset, Memory.ofImage, Memory.read_ofImageFrom]

/-- Settles O45: each of the six engines is `Engine.reset` of the arguments. -/
theorem resetEstablishesTheTable : Obligations.ResetEstablishesTheTable := by
  unfold Obligations.ResetEstablishesTheTable
  intro prog memWords inInit phase sched fits capacity
  have legal := (resetArgsLegal_iff prog memWords).mpr ⟨fits, capacity⟩
  obtain ⟨s, hs⟩ := State.exists_singleReset legal inInit
  obtain ⟨n, hn⟩ := State.exists_networkReset legal phase sched
  obtain ⟨-, sSystem⟩ := State.singleReset_eq_some hs
  obtain ⟨-, nEngines, nSystem⟩ := State.networkReset_eq_some hn
  refine ⟨s, n, hs, hn, ?_, ⟨_, sSystem⟩, nSystem⟩
  intro e he
  have isReset : e = Engine.reset prog memWords := by
    simpa [State.engineAt_single sSystem, nEngines] using he
  subst isReset
  exact ⟨fun a _ => Engine.reset_read prog memWords a, rfl, rfl, rfl, rfl, rfl, rfl⟩

end Sys2Proof.Machine
end

section
/-! The canonical form of a memory holds exactly its contents (R27; log 1). -/

namespace Sys2Proof.Machine

theorem Memory.wfFrom_cons_iff {lo a : Nat} {v : Word} {m : Memory} :
    Memory.wfFrom lo ((a, v) :: m) = true ↔ lo ≤ a ∧ v ≠ Memory.unlisted ∧ Memory.wfFrom (a + 1) m = true := by
  simp only [Memory.wfFrom, Bool.and_eq_true, decide_eq_true_eq, and_assoc]

@[simp] theorem Memory.read_cons_self (a : Nat) (v : Word) (m : Memory) : Memory.read ((a, v) :: m) a = v := by
  simp [Memory.read]

theorem Memory.read_cons_ne {a b : Nat} (v : Word) (m : Memory) (h : b ≠ a) :
    Memory.read ((a, v) :: m) b = Memory.read m b := by
  simp [Memory.read, h]

/-- A cell in which a memory holds something is not below its lower bound. -/
theorem Memory.le_of_read_ne {lo a : Nat} {m : Memory} (hm : Memory.wfFrom lo m = true)
    (h : Memory.read m a ≠ Memory.unlisted) : lo ≤ a :=
  Nat.le_of_not_lt fun lt => h (Memory.read_of_wfFrom m hm lt)

/-- What reads everywhere as 0 lists nothing. -/
theorem Memory.eq_nil_of_read {lo : Nat} {m : Memory} (hm : Memory.wfFrom lo m = true)
    (h : ∀ a, Memory.read m a = Memory.unlisted) : m = [] := by
  cases m with
  | nil => rfl
  | cons cell m =>
    obtain ⟨a, v⟩ := cell
    obtain ⟨-, hv, -⟩ := Memory.wfFrom_cons_iff.mp hm
    exact absurd (Memory.read_cons_self a v m ▸ h a) hv

/-- The first cell that a canonical memory lists is the least that holds something, so of two that read alike neither
begins before the other. -/
theorem Memory.head_le_head {lo a b : Nat} {v w : Word} {m m' : Memory} (hm : Memory.wfFrom lo ((a, v) :: m) = true)
    (hm' : Memory.wfFrom lo ((b, w) :: m') = true)
    (h : ∀ c, Memory.read ((a, v) :: m) c = Memory.read ((b, w) :: m') c) : a ≤ b := by
  obtain ⟨-, hv, tail⟩ := Memory.wfFrom_cons_iff.mp hm
  obtain ⟨-, hw, -⟩ := Memory.wfFrom_cons_iff.mp hm'
  have fromHead : Memory.wfFrom a ((a, v) :: m) = true := Memory.wfFrom_cons_iff.mpr ⟨Nat.le_refl a, hv, tail⟩
  refine Memory.le_of_read_ne fromHead ?_
  rw [h b, Memory.read_cons_self]
  exact hw

/-- Without the same first cell two canonical memories still read alike. -/
theorem Memory.read_tail_eq {a : Nat} {v : Word} {m m' : Memory} (hm : Memory.wfFrom (a + 1) m = true)
    (hm' : Memory.wfFrom (a + 1) m' = true)
    (h : ∀ c, Memory.read ((a, v) :: m) c = Memory.read ((a, v) :: m') c) (c : Nat) :
    Memory.read m c = Memory.read m' c := by
  by_cases hc : c = a
  · subst hc
    rw [Memory.read_of_wfFrom m hm (Nat.lt_succ_self c), Memory.read_of_wfFrom m' hm' (Nat.lt_succ_self c)]
  · simpa only [Memory.read_cons_ne v _ hc] using h c

/-- Canonical memories that read alike are equal, whatever lower bound they share. -/
theorem Memory.eq_of_read_eq {lo : Nat} {m m' : Memory} (hm : Memory.wfFrom lo m = true)
    (hm' : Memory.wfFrom lo m' = true) (h : ∀ a, Memory.read m a = Memory.read m' a) : m = m' := by
  induction m generalizing lo m' with
  | nil => exact (Memory.eq_nil_of_read hm' fun a => (h a).symm).symm
  | cons cell m ih =>
    obtain ⟨a, v⟩ := cell
    cases m' with
    | nil => exact Memory.eq_nil_of_read hm h
    | cons cell' m' =>
      obtain ⟨b, w⟩ := cell'
      obtain rfl : a = b :=
        Nat.le_antisymm (Memory.head_le_head hm hm' h) (Memory.head_le_head hm' hm fun c => (h c).symm)
      obtain rfl : v = w := by simpa using h a
      obtain ⟨-, -, tail⟩ := Memory.wfFrom_cons_iff.mp hm
      obtain ⟨-, -, tail'⟩ := Memory.wfFrom_cons_iff.mp hm'
      rw [ih tail tail' (Memory.read_tail_eq tail tail' h)]

/-- Settles O11, by induction on one list: the heads agree, and without them the tails read alike. -/
theorem canonicalMemoryIsUnique : Obligations.CanonicalMemoryIsUnique := by
  unfold Obligations.CanonicalMemoryIsUnique
  intro m m' hm hm' h
  exact Memory.eq_of_read_eq hm hm' h

end Sys2Proof.Machine
end

section
/-! Run states (R24, R25): what ends a run, and that nothing changes after it. -/

namespace Sys2Proof.Machine

/-- Settles O49: a step changes no engine but the selected one, which is Running. -/
theorem terminatedEngineNeverChanges : Obligations.TerminatedEngineNeverChanges := by
  unfold Obligations.TerminatedEngineNeverChanges
  intro s t j terminated hstep
  rcases step_engineAt_cases hstep j with same | ⟨k, i, hk, -, hj, -⟩
  · exact same
  · rw [hj] at terminated
    exact absurd (State.selectStage_running hk) terminated

/-- Of what executing an instruction leads to, only the case of `HLT` is Halted (R24, R111). -/
theorem ExecCase.eq_hlt_of_halted {i : Instr} {s t : State} (h : ExecCase i s t) (running : s.engine.run = .running)
    (halted : t.engine.run = .halted) : i = .hlt := by
  cases h with
  | halt hi => exact hi
  | fault | store | input | blocked | output | jump | fallThrough | adjust => simp [running] at halted

/-- `HLT` halts the engine, whatever the state (R111). -/
theorem exec_hlt (s : State) : exec .hlt s = .next s.halt := rfl

/-- Settles O50: every other instruction leaves the engine Running or Faulted. -/
theorem onlyHltHalts : Obligations.OnlyHltHalts := by
  unfold Obligations.OnlyHltHalts
  intro i s s' running hexec
  constructor
  · exact (exec_cases hexec).eq_hlt_of_halted running
  · rintro rfl
    rw [exec_hlt] at hexec
    cases hexec
    simp

/-- Settles O40: the record is read by cases on the run state; the codes are those of R141. -/
theorem faultRecordIsReadableOnlyWhenFaulted : Obligations.FaultRecordIsReadableOnlyWhenFaulted := by
  unfold Obligations.FaultRecordIsReadableOnlyWhenFaulted
  constructor
  · intro e r
    cases hrun : e.run <;> simp [Engine.faultRecord?, hrun]
  · intro w k a kind
    exact ⟨rfl, rfl, rfl, rfl, rfl, rfl⟩

end Sys2Proof.Machine
end

section
/-! Fetching at `ip` (R22, R43, R72): a fetched instruction lies inside memory, and an `ip` outside memory faults. -/

namespace Sys2Proof.Machine

theorem Opcode.width_le (op : Opcode) : op.width ≤ maxWidth := by cases op <;> decide

theorem Instr.width_le (i : Instr) : i.width ≤ maxWidth := Opcode.width_le i.opcode

/-- A Word that can be fetched lies in a cell (R43). -/
theorem State.fetchWord_ok {s : State} {k : Nat} {w : Word} (h : s.fetchWord k = .ok w) :
    0 ≤ s.engine.ip.toInt + k ∧ s.engine.ip.toInt + k < s.engine.memWords := by
  obtain ⟨a, ha, -⟩ := except_map_eq_ok h
  obtain ⟨below, eq⟩ := checkAddress_ok ha
  omega

/-- A fault of fetching the opcode word is the fault of decode (R72). -/
theorem State.fetchInstr_of_fetchWord_error {s : State} {r : FaultRecord} (h : s.fetchWord 0 = .error r) :
    s.fetchInstr = .error r := by
  simp [State.fetchInstr, decodeWith, h, bind, Except.bind]

/-- An integer in the range of a Word is not changed by wrapping (R6). -/
theorem wrap64_toInt {x : Int} (h0 : -2 ^ 63 ≤ x) (h1 : x < 2 ^ 63) : (wrap64 x).toInt = x :=
  BitVec.toInt_ofInt_eq_self (by decide) h0 h1

/-- Settles O52: `ip` is below the capacity, at most 2^62, and a width is at most 4. -/
theorem advanceOfIpNeverWraps : Obligations.AdvanceOfIpNeverWraps := by
  unfold Obligations.AdvanceOfIpNeverWraps
  intro s i hs hfetch
  obtain ⟨-, -, capacity, -⟩ := s.engine.inv_iff.mp (s.inv_iff.mp hs s.active)
  obtain ⟨w, hw, -⟩ := decodeWith_ok_iff.mp hfetch
  obtain ⟨nonneg, below⟩ := State.fetchWord_ok hw
  have width := Instr.width_le i
  simp only [Config.maxMemWords, maxWidth] at capacity width
  apply wrap64_toInt <;> omega

/-- In a single-engine system the engine never waits: its step is enabled exactly while it is Running (R86, R121). -/
theorem State.enabled_single {s : State} {e : Engine} {q : List Word} (h : s.system = .single e q) (k : Stage) :
    s.enabled k = true ↔ e.run = .running := by
  have closed : (s.from k).inputClosed = true := by simp [State.inputClosed, h]
  have notBlocked : (s.from k).blocked = false := by
    rw [Bool.eq_false_iff, ne_eq, State.blocked_iff]
    rintro ⟨p, t, -, -, -, opened⟩
    rw [closed] at opened
    cases opened
  simp [State.enabled, Engine.terminated, State.engineAt_single h, notBlocked]

theorem State.selectStage_single {s : State} {e : Engine} {q : List Word} (h : s.system = .single e q) :
    s.selectStage = if s.enabled s.active then some s.active else none := by
  simp [State.selectStage, h]

/-- A Running single engine steps (R80). -/
theorem step_single {s : State} {e : Engine} {q : List Word} (h : s.system = .single e q) (running : e.run = .running) :
    step s = s.stepActive := by
  have selected : s.selectStage = some s.active := by
    rw [State.selectStage_single h, if_pos ((State.enabled_single h s.active).mpr running)]
  simp [step, selected, State.turnTo_single h]

/-- Settles O20: `step` answers the same state when no stage is selected; the sole engine is selected while it runs. -/
theorem noEnabledStepKeepsTheState : Obligations.NoEnabledStepKeepsTheState := by
  unfold Obligations.NoEnabledStepKeepsTheState
  intro s
  constructor
  · intro idle
    simp [step, idle]
  · intro e q h
    rw [State.selectStage_single h, ne_eq, ← State.enabled_single h s.active]
    simp

/-- A fault of fetching the opcode word is the step of a Running single engine (R72, R80). -/
theorem step_single_of_fetchWord_error {s : State} {e : Engine} {q : List Word} (h : s.system = .single e q)
    (running : e.run = .running) {r : FaultRecord} (hr : s.fetchWord 0 = .error r) : step s = .next (s.raise r) := by
  rw [step_single h running, State.stepActive, State.fetchInstr_of_fetchWord_error hr]

/-- Settles O44: the address of the opcode word is `ip` itself, and its check faults. -/
theorem fetchOutsideMemoryFaults : Obligations.FetchOutsideMemoryFaults := by
  unfold Obligations.FetchOutsideMemoryFaults
  intro s e q h running
  have he : s.engine = e := State.engineAt_single h s.active
  have fetchFault : ∀ r, checkAddress e.memWords e.ip.toInt .fetch = .error r → step s = .next (s.raise r) := by
    intro r hr
    refine step_single_of_fetchWord_error h running ?_
    simp [State.fetchWord, State.memRead, he, hr, Except.map]
  constructor
  · intro negative
    exact fetchFault _ (by simp [checkAddress, negative])
  · intro above
    exact fetchFault _ (by rw [checkAddress, if_neg (by omega), if_pos above])

end Sys2Proof.Machine
end

section
/-! The FIFOs (R30, R126): what one step does to each. -/

namespace Sys2Proof.Machine

/-- An instruction of the active stage leaves the FIFO `j` as it is, takes its oldest value as its consumer, or appends
to it, as its producer, what it logs. -/
theorem ExecFrame.fifo_cases {s t : State} {st : PerStage Engine} {f : PerStage (List Word)}
    (hs : s.system = .network st f) (h : ExecFrame s t) :
    ∃ st' f', t.system = .network st' f' ∧ ∀ j,
      f'.get j = f.get j ∨
      (s.active = j ∧ ∃ x, f.get j = x :: f'.get j) ∨
      (s.active = j.prev ∧
        ∃ v, f'.get j = f.get j ++ [v] ∧ (st'.get j.prev).outlog = (st.get j.prev).outlog ++ [v]) := by
  cases h with
  | engineOnly e => exact ⟨_, f, State.withEngine_system_network hs e, fun j => .inl rfl⟩
  | takesInput e x rest hq =>
    have hs' : (s.withInputQueue rest).system = .network st (f.set s.active rest) := by
      simp [State.withInputQueue, hs]
    refine ⟨_, _, State.withEngine_system_network hs' e, fun j => ?_⟩
    by_cases hj : j = s.active
    · subst hj
      have queue : f.get s.active = x :: rest := by simpa [State.inputQueue, hs] using hq
      exact .inr (.inl ⟨rfl, x, by simpa using queue⟩)
    · exact .inl (PerStage.get_set_ne f rest hj)
  | sendsValue e v hlog =>
    have hs' : (s.sendDownstream v).system =
        .network st (f.set s.active.next (f.get s.active.next ++ [v])) := by
      simp [State.sendDownstream, hs]
    refine ⟨_, _, State.withEngine_system_network hs' e, fun j => ?_⟩
    by_cases hj : j = s.active.next
    · subst hj
      have engine : s.engine = st.get s.active := State.engineAt_network hs s.active
      refine .inr (.inr ⟨by simp, v, by simp, ?_⟩)
      simpa [engine] using hlog
    · exact .inl (PerStage.get_set_ne f _ hj)

/-- Settles O54: the frame of one instruction, at the selected stage. -/
theorem fifosKeepOrderAndLoseNothing : Obligations.FifosKeepOrderAndLoseNothing := by
  unfold Obligations.FifosKeepOrderAndLoseNothing
  intro s t st f hs hstep
  rcases step_execCase hstep with ⟨-, rfl⟩ | ⟨k, i, selected, hi⟩
  · exact ⟨st, f, hs, fun j => .inl rfl⟩
  · have turned : (s.turnTo k).system = .network st f := by rw [State.turnTo_system, hs]
    have selectedIff : ∀ j, s.selectStage = some j ↔ (s.turnTo k).active = j := by
      intro j
      rw [selected, Option.some.injEq, State.turnTo_active_network hs]
    simp only [selectedIff]
    exact hi.frame.fifo_cases turned

end Sys2Proof.Machine
end

section
/-! Memory accesses (R43, R44, R45, R51): what the checked read and the checked write answer, what a stored cell reads
as, and that the capacity they check against is fixed. -/

namespace Sys2Proof.Machine

theorem checkAddress_negative {n : Nat} {a : Int} (kind : AccessKind) (h : a < 0) :
    checkAddress n a kind = .error (.negativeAddress a kind) := by
  rw [checkAddress, if_pos h]

/-- The capacity is not negative, so an address at or above it passes the first check (R43). -/
theorem checkAddress_above {n : Nat} {a : Int} (kind : AccessKind) (h : (n : Int) ≤ a) :
    checkAddress n a kind = .error (.capacityExceeded a kind) := by
  rw [checkAddress, if_neg (by omega), if_pos h]

section
variable {s : State} {a : Int}

theorem State.memRead_of_checkAddress_error {kind : AccessKind} {r : FaultRecord}
    (h : checkAddress s.engine.memWords a kind = .error r) : s.memRead a kind = .error r := by
  rw [State.memRead, h, Except.map]

theorem State.memRead_in (kind : AccessKind) (h0 : 0 ≤ a) (h1 : a < s.engine.memWords) :
    s.memRead a kind = .ok (s.readCell a.toNat) := by
  rw [State.memRead, checkAddress_in h0 h1, Except.map]

theorem State.memWrite_of_checkAddress_error {r : FaultRecord} (v : Word)
    (h : checkAddress s.engine.memWords a .write = .error r) : s.memWrite a v = .error r := by
  rw [State.memWrite, h, Except.map]

theorem State.memWrite_in (v : Word) (h0 : 0 ≤ a) (h1 : a < s.engine.memWords) :
    s.memWrite a v = .ok (s.storeCell a.toNat v) := by
  rw [State.memWrite, checkAddress_in h0 h1, Except.map]

end

/-- In a canonical memory the stored Word is read back (R44). -/
theorem State.readCell_storeCell_self {s : State} (wf : s.engine.mem.wf = true) (t : Nat) (v : Word) :
    (s.storeCell t v).readCell t = v := by
  rw [State.readCell, State.storeCell_engine]
  exact Memory.read_write_self wf t v

/-- Every other cell reads as before (R44). -/
theorem State.readCell_storeCell_ne (s : State) {t c : Nat} (v : Word) (h : c ≠ t) :
    (s.storeCell t v).readCell c = s.readCell c := by
  rw [State.readCell, State.storeCell_engine]
  exact Memory.read_write_ne s.engine.mem v h

/-- Settles O9: the three outcomes of the address check, carried over to the read. -/
theorem memReadChecksTheAddress : Obligations.MemReadChecksTheAddress := by
  unfold Obligations.MemReadChecksTheAddress
  intro s a kind _
  exact ⟨fun negative => State.memRead_of_checkAddress_error (checkAddress_negative kind negative),
    fun above => State.memRead_of_checkAddress_error (checkAddress_above kind above),
    State.memRead_in kind⟩

/-- Settles O10: a rejected address is the answer of the write, and an accepted one is a store, which is seen in one cell
only. -/
theorem memWriteChangesOneCell : Obligations.MemWriteChangesOneCell := by
  unfold Obligations.MemWriteChangesOneCell
  intro s a v wf
  refine ⟨fun negative => State.memWrite_of_checkAddress_error v (checkAddress_negative .write negative),
    fun above => State.memWrite_of_checkAddress_error v (checkAddress_above .write above), fun nonneg below => ?_⟩
  refine ⟨s.storeCell a.toNat v, State.memWrite_in v nonneg below, State.readCell_storeCell_self wf _ v,
    fun c => s.readCell_storeCell_ne v, ?_⟩
  rw [State.storeCell_engine, State.storeCell]

/-- Settles O14: the store moves neither `ip` nor the capacity, so the fetch reads the cell just written. -/
theorem storeIsSeenByTheNextFetch : Obligations.StoreIsSeenByTheNextFetch := by
  unfold Obligations.StoreIsSeenByTheNextFetch
  intro s t v wf below atIp
  have fetched : (s.storeCell t v).fetchWord 0 = (s.storeCell t v).memRead t .fetch := by
    simp [State.fetchWord, atIp]
  have inMemory : (t : Int) < (s.storeCell t v).engine.memWords := by
    rw [State.storeCell_engine]
    exact_mod_cast below
  rw [fetched, State.memRead_in .fetch (Int.natCast_nonneg t) inMemory, Int.toNat_natCast,
    State.readCell_storeCell_self wf]

/-- No instruction changes the capacity of the engine that executes it (R45). -/
theorem ExecCase.engine_memWords {i : Instr} {s t : State} (h : ExecCase i s t) :
    t.engine.memWords = s.engine.memWords := by
  cases h with
  | blocked => rfl
  | fault | store | input | output | jump | fallThrough | adjust | halt => simp

/-- Settles O51: an engine the step changes is the one that executed, and no instruction changes its capacity. -/
theorem capacityNeverChanges : Obligations.CapacityNeverChanges := by
  unfold Obligations.CapacityNeverChanges
  intro s t j hstep
  rcases step_engineAt_cases hstep j with same | ⟨k, i, -, hi, hs, ht⟩
  · rw [same]
  · rw [ht, hs, hi.engine_memWords, State.turnTo_engine]

end Sys2Proof.Machine
end

section
/-! Decoding in full (30_encoding.md): the instruction that a list of words decodes to, and the first thing that goes
wrong when an opcode word has no instruction. -/

namespace Sys2Proof

/-! What `decode` answers. -/

theorem listFetch_eq_ok_iff {ws : List Word} {k : Nat} {w : Word} : listFetch ws k = .ok w ↔ ws[k]? = some w := by
  unfold listFetch
  split <;> simp [*]

theorem Instr.width_eq (i : Instr) : i.width = i.operands.length + 1 := by cases i <;> rfl

theorem Instr.operands_length (i : Instr) : i.operands.length = i.opcode.arity := by cases i <;> rfl

theorem decode_eq_ok_iff {ws rest : List Word} {i : Instr} :
    decode ws = .ok (i, rest) ↔ decodeWith .reject (listFetch ws) = .ok i ∧ rest = ws.drop i.width := by
  unfold decode
  cases decodeWith DecodeError.reject (listFetch ws) with
  | error e => simp [Except.map]
  | ok j =>
    simp only [Except.map, Except.ok.injEq, Prod.mk.injEq]
    constructor
    · rintro ⟨rfl, rfl⟩; exact ⟨rfl, rfl⟩
    · rintro ⟨rfl, rfl⟩; exact ⟨rfl, rfl⟩

/-- The raw words of the operands stand at the head of a list exactly when each stands at its place (R66). -/
theorem rawWords_append_drop_iff {ps : List Operand} {ws : List Word} :
    (∀ (k : Nat) (p : Operand), ps[k]? = some p → ws[k]? = some p.raw) ↔ ws = ps.map Operand.raw ++ ws.drop ps.length := by
  constructor
  · intro h
    have isPrefix : ps.map Operand.raw <+: ws := by
      refine List.prefix_iff_getElem?.mpr fun k hk => ?_
      rw [List.length_map] at hk
      rw [h k ps[k] (List.getElem?_eq_getElem hk), List.getElem_map]
    simpa using (List.prefix_iff_eq_append.mp isPrefix).symm
  · intro h k p hp
    have inside : k < (ps.map Operand.raw).length := by
      simpa using (List.getElem?_eq_some_iff.mp hp).1
    rw [h, List.getElem?_append_left inside, List.getElem?_map, hp, Option.map_some]

/-- A list of words decodes to `i` and `rest` exactly when it is an opcode word with the opcode and the mode digits of
`i`, then the raw words of its operands, then `rest` (R60 to R66). -/
theorem decode_ok_iff {ws rest : List Word} {i : Instr} :
    decode ws = .ok (i, rest) ↔
      ∃ w, ws = w :: (i.operands.map Operand.raw ++ rest) ∧ opcodeOf w = some i.opcode ∧
        ∀ k p, i.operands[k]? = some p → digit w (k + 2) = p.mode.toDigit := by
  rw [decode_eq_ok_iff, decodeWith_ok_iff, Instr.width_eq]
  cases ws with
  | nil => simp [listFetch]
  | cons w ws =>
    simp only [operandRead, listFetch_eq_ok_iff, List.getElem?_cons_zero, List.getElem?_cons_succ, List.drop_succ_cons,
      List.cons.injEq, Option.some.injEq]
    constructor
    · rintro ⟨⟨_, rfl, hop, operands⟩, rfl⟩
      exact ⟨w, ⟨rfl, rawWords_append_drop_iff.mp fun k p hp => (operands k p hp).2⟩, hop,
        fun k p hp => (operands k p hp).1⟩
    · rintro ⟨_, ⟨rfl, hws⟩, hop, digits⟩
      have hrest : rest = ws.drop i.operands.length := by simp [hws]
      have raws := rawWords_append_drop_iff.mpr (hrest ▸ hws)
      exact ⟨⟨w, rfl, hop, fun k p hp => ⟨digits k p hp, raws k p hp⟩⟩, hrest⟩

/-- Decoding inverts encoding (R60, R61, R66, R75). -/
@[simp] theorem decode_encode_append (i : Instr) (rest : List Word) : decode (encode i ++ rest) = .ok (i, rest) :=
  decode_ok_iff.mpr ⟨i.opcodeWord, rfl, i.opcodeWord_spec⟩

/-- Settles O2: the canonical opcode word has the opcode and the mode digits, and the raw words follow it verbatim. -/
theorem decodeOfEncodeIsIdentity : Obligations.DecodeOfEncodeIsIdentity := by
  unfold Obligations.DecodeOfEncodeIsIdentity
  exact decode_encode_append

/-- Settles O3: the characterisation of `decode`, with the opcode read as `w mod 100`. -/
theorem decodedFieldsAreTheDigits : Obligations.DecodedFieldsAreTheDigits := by
  unfold Obligations.DecodedFieldsAreTheDigits
  intro ws rest i h
  obtain ⟨w, hws, hop, digits⟩ := decode_ok_iff.mp h
  obtain ⟨nonneg, number⟩ := opcodeOf_eq_some.mp hop
  exact ⟨w, hws, nonneg, number, digits⟩

/-! Words that agree in their low digits. -/

/-- The low `n` decimal digits of a Word determine each of these digits (R6). -/
theorem digit_eq_of_mod_eq {w w' : Word} {n k : Nat} (h : w.toNat % 10 ^ n = w'.toNat % 10 ^ n) (hk : k < n) :
    digit w k = digit w' k := by
  have low : w.toNat % (10 ^ k * 10) = w'.toNat % (10 ^ k * 10) := Nat.ModEq.of_dvd (pow_dvd_pow 10 hk) h
  rw [digit, digit, ← Nat.mod_mul_right_div_self, low, Nat.mod_mul_right_div_self]

/-- Words that agree in at least the low two digits have the same opcode, unless one is negative (R62). -/
theorem opcodeOf_of_mod_eq {w w' : Word} {n : Nat} {op : Opcode} (hop : opcodeOf w = some op) (nonneg : 0 ≤ w'.toInt)
    (h : w.toNat % 10 ^ (n + 2) = w'.toNat % 10 ^ (n + 2)) : opcodeOf w' = some op := by
  have low : w.toNat % 100 = w'.toNat % 100 := Nat.ModEq.of_dvd (pow_dvd_pow 10 (Nat.le_add_left 2 n)) h
  exact opcodeOf_eq_some.mpr ⟨nonneg, low ▸ (opcodeOf_eq_some.mp hop).2⟩

/-- A decode looks at no digit above those of the opcode and of its operands' modes (R70). -/
theorem decode_cons_of_mod_eq {w w' : Word} {ws rest : List Word} {i : Instr} (nonneg : 0 ≤ w'.toInt)
    (h : w.toNat % 10 ^ (i.opcode.arity + 2) = w'.toNat % 10 ^ (i.opcode.arity + 2))
    (hd : decode (w :: ws) = .ok (i, rest)) : decode (w' :: ws) = .ok (i, rest) := by
  obtain ⟨_, hws, hop, digits⟩ := decode_ok_iff.mp hd
  obtain ⟨rfl, rfl⟩ := List.cons.inj hws
  refine decode_ok_iff.mpr ⟨w', rfl, opcodeOf_of_mod_eq hop nonneg h, fun k p hp => ?_⟩
  have hk : k < i.opcode.arity := i.operands_length ▸ (List.getElem?_eq_some_iff.mp hp).1
  rw [← digit_eq_of_mod_eq h (by omega), digits k p hp]

/-- The instruction decoded from an opcode word has the opcode of that word (R62). -/
theorem opcodeOf_of_decode_cons {w : Word} {ws rest : List Word} {i : Instr} (h : decode (w :: ws) = .ok (i, rest)) :
    opcodeOf w = some i.opcode := by
  obtain ⟨_, hws, hop, -⟩ := decode_ok_iff.mp h
  rwa [(List.cons.inj hws).1]

/-- Settles O4: agreement in the low digits is symmetric, and the opcode is among them, so each word decodes as the
other. -/
theorem unexaminedDigitsAreIgnored : Obligations.UnexaminedDigitsAreIgnored := by
  unfold Obligations.UnexaminedDigitsAreIgnored
  intro w w' ws op ⟨i, rest⟩ hop nonneg' agree
  have nonneg := (opcodeOf_eq_some.mp hop).1
  have hop' := opcodeOf_of_mod_eq hop nonneg' agree
  constructor
  · intro h
    obtain rfl : op = i.opcode := Option.some.inj (hop.symm.trans (opcodeOf_of_decode_cons h))
    exact decode_cons_of_mod_eq nonneg' agree h
  · intro h
    obtain rfl : op = i.opcode := Option.some.inj (hop'.symm.trans (opcodeOf_of_decode_cons h))
    exact decode_cons_of_mod_eq nonneg agree.symm h

/-- Settles O1: closed words, which the decoder evaluates. -/
theorem specWordsDecodeAsWritten : Obligations.SpecWordsDecodeAsWritten := by
  unfold Obligations.SpecWordsDecodeAsWritten
  exact ⟨rfl, rfl, rfl, rfl, rfl, rfl, rfl, rfl, rfl, rfl, rfl⟩

end Sys2Proof
end

section
/-! The faults of decode in the order of R72: the opcode word, the opcode, the modes in ascending order, the operand words
in ascending order. -/

namespace Sys2Proof

section
variable {ε α β : Type}

theorem except_map_eq_error {x : Except ε α} {g : α → β} {e : ε} : x.map g = .error e ↔ x = .error e := by
  cases x <;> simp [Except.map]

theorem except_bind_eq_error {x : Except ε α} {g : α → Except ε β} {e : ε} :
    (x >>= g) = .error e ↔ x = .error e ∨ ∃ a, x = .ok a ∧ g a = .error e := by
  cases x <;> simp [bind, Except.bind]

/-- `f` asked at `1 .. n` in ascending order ends with the error `e`. -/
def FirstError (f : Nat → Except ε α) (n : Nat) (e : ε) : Prop :=
  ∃ k, 1 ≤ k ∧ k ≤ n ∧ f k = .error e ∧ ∀ j, 1 ≤ j → j < k → ∃ v, f j = .ok v

/-- `f` asked at `1 .. n` answers everywhere. -/
def AllAnswer (f : Nat → Except ε α) (n : Nat) : Prop := ∀ k, 1 ≤ k → k ≤ n → ∃ v, f k = .ok v

@[simp] theorem allAnswer_zero (f : Nat → Except ε α) : AllAnswer f 0 := fun k h1 h0 => by omega

@[simp] theorem not_firstError_zero (f : Nat → Except ε α) (e : ε) : ¬ FirstError f 0 e := by
  rintro ⟨k, h1, h0, -⟩
  omega

theorem allAnswer_succ {f : Nat → Except ε α} {n : Nat} :
    AllAnswer f (n + 1) ↔ AllAnswer f n ∧ ∃ v, f (n + 1) = .ok v := by
  constructor
  · intro h
    exact ⟨fun k h1 hk => h k h1 (by omega), h (n + 1) (by omega) le_rfl⟩
  · rintro ⟨below, last⟩ k h1 hk
    rcases Nat.lt_or_eq_of_le hk with lt | rfl
    · exact below k h1 (by omega)
    · exact last

/-- The first error lies below, or all answer below and it is the last one asked. -/
theorem firstError_succ {f : Nat → Except ε α} {n : Nat} {e : ε} :
    FirstError f (n + 1) e ↔ FirstError f n e ∨ AllAnswer f n ∧ f (n + 1) = .error e := by
  constructor
  · rintro ⟨k, h1, hk, error, lower⟩
    rcases Nat.lt_or_eq_of_le hk with lt | rfl
    · exact .inl ⟨k, h1, by omega, error, lower⟩
    · exact .inr ⟨fun j h1 hj => lower j h1 (by omega), error⟩
  · rintro (⟨k, h1, hk, error, lower⟩ | ⟨below, error⟩)
    · exact ⟨k, h1, by omega, error, lower⟩
    · exact ⟨n + 1, by omega, le_rfl, error, fun j h1 hj => below j h1 (by omega)⟩

end

section
variable {ε : Type} {reject : Reject → ε} {fetch : Nat → Except ε Word} {w : Word} {e : ε}

/-- What ends the operands of an `n`-operand instruction: the first mode that is rejected, else the first word that
cannot be fetched (R72). -/
def OperandsError (reject : Reject → ε) (fetch : Nat → Except ε Word) (w : Word) (n : Nat) (e : ε) : Prop :=
  FirstError (modeOf reject w) n e ∨ AllAnswer (modeOf reject w) n ∧ FirstError fetch n e

/-! Each operand list is a chain of binds, and so ends with the error of its first link, or when that answers with the
error of the next, and so on; distributed over `∨` this is `OperandsError`. -/

theorem operands1_error_iff : operands1 reject fetch w = .error e ↔ OperandsError reject fetch w 1 e := by
  simp only [operands1, except_bind_eq_error, exists_and_right, reduceCtorEq, and_false, exists_false, or_false]
  simp [OperandsError, firstError_succ, allAnswer_succ]

theorem operands2_error_iff : operands2 reject fetch w = .error e ↔ OperandsError reject fetch w 2 e := by
  simp only [operands2, except_bind_eq_error, exists_and_right, reduceCtorEq, and_false, exists_false, or_false]
  simp [OperandsError, firstError_succ, allAnswer_succ, and_or_left, and_assoc, or_assoc]

theorem operands3_error_iff : operands3 reject fetch w = .error e ↔ OperandsError reject fetch w 3 e := by
  simp only [operands3, except_bind_eq_error, exists_and_right, reduceCtorEq, and_false, exists_false, or_false]
  simp [OperandsError, firstError_succ, allAnswer_succ, and_or_left, and_assoc, or_assoc]

/-- With a legal opcode only the operands can end a decode (R68, R72). -/
theorem decodeAs_error_iff {op : Opcode} :
    decodeAs reject fetch w op = .error e ↔ OperandsError reject fetch w op.arity e := by
  cases op with
  | hlt => simp [decodeAs, Opcode.arity, OperandsError]
  | inp | out | arb => exact except_map_eq_error.trans operands1_error_iff
  | jt | jf => exact except_map_eq_error.trans operands2_error_iff
  | add | mul | lt | eq => exact except_map_eq_error.trans operands3_error_iff

/-! The opcode and the modes. -/

/-- The opcode word is rejected exactly when it is negative or its low two digits are no opcode's number (R68). -/
theorem opcodeOf_eq_none {w : Word} :
    opcodeOf w = none ↔ w.toInt < 0 ∨ w.toNat % 100 ∉ [1, 2, 3, 4, 5, 6, 7, 8, 9, 99] := by
  rw [← Opcode.ofNumber_eq_none, opcodeOf]
  split <;> simp [*]

/-- A mode digit is a mode unless it is 3 .. 9 (R64, R69). -/
theorem modeOf_answers_iff {k : Nat} : (∃ m, modeOf reject w k = .ok m) ↔ digit w (k + 1) ≤ 2 := by
  unfold modeOf
  cases hm : Mode.ofDigit (digit w (k + 1)) with
  | none => simpa [Nat.lt_iff_add_one_le] using Mode.ofDigit_eq_none.mp hm
  | some m => simpa [Mode.ofDigit_eq_some hm] using Nat.le_of_lt_succ m.toDigit_lt

theorem modeOf_error_iff {k : Nat} :
    modeOf reject w k = .error e ↔ 3 ≤ digit w (k + 1) ∧ e = reject (.illegalMode w k) := by
  rw [← Mode.ofDigit_eq_none]
  unfold modeOf
  split <;> simp [*, eq_comm]

end

namespace Machine

/-! Fetch and decode of a state. -/

theorem State.fetchInstr_of_opcodeOf_none {s : State} {w : Word} (h : s.fetchWord 0 = .ok w)
    (hop : opcodeOf w = none) : s.fetchInstr = .error (.illegalOpcode w) := by
  simp [State.fetchInstr, decodeWith, h, hop, bind, Except.bind, FaultRecord.ofReject]

/-- The faults of decode once the opcode word is fetched and its opcode legal (R69, R72). -/
theorem State.fetchInstr_error_iff {s : State} {w : Word} {op : Opcode} {r : FaultRecord}
    (h : s.fetchWord 0 = .ok w) (hop : opcodeOf w = some op) :
    s.fetchInstr = .error r ↔ OperandsError FaultRecord.ofReject s.fetchWord w op.arity r := by
  rw [← decodeAs_error_iff, State.fetchInstr, decodeWith, h]
  simp [hop, bind, Except.bind]

/-- A fault of a checked access is one of the two address faults (R43). -/
theorem State.memRead_ne_illegalOpcode (s : State) (a : Int) (kind : AccessKind) (w : Word) :
    s.memRead a kind ≠ .error (.illegalOpcode w) := by
  intro h
  rw [State.memRead, except_map_eq_error] at h
  rcases checkAddress_cases s.engine.memWords a kind with ⟨-, h'⟩ | ⟨-, h'⟩ | ⟨-, -, h'⟩ <;> rw [h'] at h <;> cases h

/-- The operands of a legal opcode fault with a mode or an address, never with the opcode (R69, R72). -/
theorem not_operandsError_illegalOpcode (s : State) (w w' : Word) (n : Nat) :
    ¬ OperandsError FaultRecord.ofReject s.fetchWord w n (.illegalOpcode w') := by
  rintro (⟨k, -, -, mode, -⟩ | ⟨-, k, -, -, fetch, -⟩)
  · cases (modeOf_error_iff.mp mode).2
  · exact s.memRead_ne_illegalOpcode _ _ _ fetch

/-- Settles O5: a word without an opcode is rejected at once, and no later fault of decode is IllegalOpcode. -/
theorem illegalOpcodeExactly : Obligations.IllegalOpcodeExactly := by
  unfold Obligations.IllegalOpcodeExactly
  intro s w fetched
  rw [← opcodeOf_eq_none]
  constructor
  · intro fault
    cases hop : opcodeOf w with
    | none => rfl
    | some op =>
      exact absurd ((State.fetchInstr_error_iff fetched hop).mp fault) (not_operandsError_illegalOpcode s w w op.arity)
  · exact State.fetchInstr_of_opcodeOf_none fetched

/-- Settles O6: the mode of operand `k` is the first to be rejected, and all modes come before the operand words. -/
theorem illegalModeOfTheLowestOperand : Obligations.IllegalModeOfTheLowestOperand := by
  unfold Obligations.IllegalModeOfTheLowestOperand
  intro s w op k fetched hop h1 hk illegal lower
  refine (State.fetchInstr_error_iff fetched hop).mpr (.inl ⟨k, h1, hk, ?_, fun j hj hjk => ?_⟩)
  · exact modeOf_error_iff.mpr ⟨illegal, rfl⟩
  · exact modeOf_answers_iff.mpr (lower j hj hjk)

/-- Settles O7: the opcode word is fetched before anything else, and with all modes legal the words decide in ascending
order. -/
theorem fetchFaultsInOrder : Obligations.FetchFaultsInOrder := by
  unfold Obligations.FetchFaultsInOrder
  intro s r
  refine ⟨State.fetchInstr_of_fetchWord_error, fun w op k fetched hop modes h1 hk lower fault => ?_⟩
  have modesAnswer : AllAnswer (modeOf FaultRecord.ofReject w) op.arity :=
    fun j hj hja => modeOf_answers_iff.mpr (modes j hj hja)
  exact (State.fetchInstr_error_iff fetched hop).mpr (.inr ⟨modesAnswer, k, h1, hk, fault, lower⟩)

end Machine
end Sys2Proof
end

section
/-! Immediate destinations (R71), and the instruction that lies in the cells at `ip` (R66, R72, R80). -/

namespace Sys2Proof.Machine

/-! Storing instructions. -/

theorem State.target_immediate (s : State) (k : Nat) (v : Word) :
    s.target k ⟨.immediate, v⟩ = .error (.writeToImmediate k) := rfl

/-- With both sources read, what a storing instruction yields is decided by its target (R88). -/
theorem State.storeResult_of_val {s : State} {p1 p2 : Operand} {a b : Word} (h1 : s.val p1 = .ok a)
    (h2 : s.val p2 = .ok b) (f : Word → Word → Word) (p3 : Operand) (n : Nat) :
    s.storeResult f p1 p2 p3 n = (s.target 3 p3).map fun t => (s.storeCell t (f a b)).advance n := by
  rw [State.storeResult, h1, h2]
  cases s.target 3 p3 <;> rfl

/-- The four storing instructions differ in the operation only. -/
theorem exec_storing {i : Instr} {p1 p2 p3 : Operand}
    (hi : i ∈ [Instr.add p1 p2 p3, .mul p1 p2 p3, .lt p1 p2 p3, .eq p1 p2 p3]) (s : State) :
    ∃ f, exec i s = s.commit (s.storeResult f p1 p2 p3 4) := by
  simp only [List.mem_cons, List.not_mem_nil, or_false] at hi
  rcases hi with rfl | rfl | rfl | rfl
  · exact ⟨addWords, rfl⟩
  · exact ⟨mulWords, rfl⟩
  · exact ⟨fun a b => testResult (signedLess a b), rfl⟩
  · exact ⟨fun a b => testResult (wordsEqual a b), rfl⟩

/-- A storing instruction with readable sources takes the fault of its target (R88). -/
theorem exec_storing_of_target_error {i : Instr} {p1 p2 p3 : Operand}
    (hi : i ∈ [Instr.add p1 p2 p3, .mul p1 p2 p3, .lt p1 p2 p3, .eq p1 p2 p3]) {s : State} {r : FaultRecord}
    (h1 : s.readable p1 = true) (h2 : s.readable p2 = true) (h3 : s.target 3 p3 = .error r) :
    exec i s = .next (s.raise r) := by
  obtain ⟨f, hf⟩ := exec_storing hi s
  obtain ⟨a, ha⟩ := State.readable_val h1
  obtain ⟨b, hb⟩ := State.readable_val h2
  rw [hf, State.storeResult_of_val ha hb, h3, Except.map, State.commit]

/-- `IN` takes the fault of its target before it asks the port (R95). -/
theorem exec_inp_of_target_error {s : State} {p : Operand} {r : FaultRecord} (h : s.target 1 p = .error r) :
    exec (.inp p) s = .next (s.raise r) := by
  simp [exec, execIn, h]

/-- Settles O8: every instruction decodes from its encoding, and the target of an Immediate operand is the fault. -/
theorem immediateDestinationFaultsAtExecution : Obligations.ImmediateDestinationFaultsAtExecution := by
  unfold Obligations.ImmediateDestinationFaultsAtExecution
  intro s p1 p2 v rest
  refine ⟨fun i hi => ⟨decode_encode_append i rest, fun h1 h2 => ?_⟩, decode_encode_append _ rest, ?_⟩
  · exact exec_storing_of_target_error hi h1 h2 (s.target_immediate 3 v)
  · exact exec_inp_of_target_error (s.target_immediate 1 v)

/-! The words of an instruction in the cells from `ip` on. -/

theorem encode_length (i : Instr) : (encode i).length = i.width := by simp [encode, Instr.width_eq]

/-- A way of fetching that answers the words of the encoding decodes to the instruction (R66, R72). -/
theorem decodeWith_of_encode {ε : Type} {reject : Reject → ε} {fetch : Nat → Except ε Word} {i : Instr}
    (h : ∀ j w, (encode i)[j]? = some w → fetch j = .ok w) : decodeWith reject fetch = .ok i := by
  obtain ⟨hop, digits⟩ := i.opcodeWord_spec
  refine decodeWith_ok_iff.mpr ⟨i.opcodeWord, h 0 _ rfl, hop, fun k p hp => ⟨digits k p hp, h (k + 1) p.raw ?_⟩⟩
  simp [encode, hp]

/-- Below the capacity the fetch answers the cell (R43, R72). -/
theorem State.fetchWord_in {s : State} {j : Nat} (h0 : 0 ≤ s.engine.ip.toInt)
    (h1 : s.engine.ip.toInt + j < s.engine.memWords) :
    s.fetchWord j = .ok (s.readCell (s.engine.ip.toInt.toNat + j)) := by
  rw [State.fetchWord, State.memRead_in .fetch (by omega) h1, Int.toNat_add h0 (Int.natCast_nonneg j),
    Int.toNat_natCast]

/-- A Running engine of a single-engine system steps by the instruction it decodes (R80). -/
theorem step_of_fetchInstr {s : State} {i : Instr} (h : s.fetchInstr = .ok i) (single : s.isNetwork = false)
    (running : s.engine.run = .running) : step s = exec i s := by
  cases hs : s.system with
  | network st f => simp [State.isNetwork, hs] at single
  | single e q =>
    have he : s.engine = e := State.engineAt_single hs s.active
    rw [step_single hs (he ▸ running), State.stepActive, h]

/-- Settles O16: the fetched words are those of the encoding. -/
theorem cellsAtIpAreTheInstructionRun : Obligations.CellsAtIpAreTheInstructionRun := by
  unfold Obligations.CellsAtIpAreTheInstructionRun
  intro s i nonneg fits cells
  have fetched : s.fetchInstr = .ok i := by
    refine decodeWith_of_encode fun j w hw => ?_
    have inside : j < i.width := encode_length i ▸ (List.getElem?_eq_some_iff.mp hw).1
    rw [State.fetchWord_in nonneg (by omega), cells j w hw]
  exact ⟨fetched, step_of_fetchInstr fetched⟩

end Sys2Proof.Machine
end

section
/-! What each instruction changes (R84), register by register: one case analysis over `ExecCase` for each piece of state.
The frames of the instructions are assembled from these. -/

namespace Sys2Proof.Machine

/-! Each cell and register of the active engine, its input and the model's own fields. -/

section
variable {i : Instr} {s t : State} (h : ExecCase i s t)
include h

/-- Only the cell that `target` computes for the destination operand can change (R84). -/
theorem ExecCase.readCell_eq {c : Nat} (hc : ∀ k p, i.destination? = some (k, p) → s.target k p ≠ .ok c) :
    t.readCell c = s.readCell c := by
  cases h with
  | store p a v hd ht =>
    have other : c ≠ a := by rintro rfl; exact hc 3 p hd ht
    simp [State.readCell, Memory.read_write_ne, other]
  | input p a x rest hi ht hq =>
    have other : c ≠ a := by rintro rfl; subst hi; exact hc 1 p rfl ht
    simp [State.readCell, Memory.read_write_ne, other]
  | blocked => rfl
  | fault | output | jump | fallThrough | adjust | halt => simp [State.readCell]

/-- Once the target is known, every other cell reads as before (R84). -/
theorem ExecCase.readCell_eq_of_ne_target {k a : Nat} {p : Operand} (hd : i.destination? = some (k, p))
    (ht : s.target k p = .ok a) : ∀ c, c ≠ a → t.readCell c = s.readCell c := by
  intro c hc
  refine h.readCell_eq fun k' p' hd' ht' => hc ?_
  rw [hd] at hd'
  cases hd'
  rw [ht] at ht'
  cases ht'
  rfl

/-- An instruction without a destination operand keeps its memory. -/
theorem ExecCase.mem_eq (hd : i.destination? = none) : t.engine.mem = s.engine.mem := by
  cases h with
  | store p a v hd' ht => rw [hd] at hd'; cases hd'
  | input p a x rest hi ht hq => subst hi; cases hd
  | blocked => rfl
  | fault | output | jump | fallThrough | adjust | halt => simp

/-- `rb` changes only by `ARB` (R110). -/
theorem ExecCase.rb_eq (hi : ∀ p, i ≠ .arb p) : t.engine.rb = s.engine.rb := by
  cases h with
  | adjust p d hi' hv => exact absurd hi' (hi p)
  | blocked => rfl
  | fault | store | input | output | jump | fallThrough | halt => simp

/-- The log changes only by `OUT`, which appends the value of its operand (R96). -/
theorem ExecCase.outlog_cases :
    t.engine.outlog = s.engine.outlog ∨
      ∃ p x, i = .out p ∧ s.val p = .ok x ∧ t.engine.outlog = s.engine.outlog ++ [x] := by
  cases h with
  | output p x hi hv => exact .inr ⟨p, x, hi, hv, by simp⟩
  | blocked => exact .inl rfl
  | fault | store | input | jump | fallThrough | adjust | halt => exact .inl (by simp)

/-- The input changes only by `IN`, which takes its oldest value (R95). -/
theorem ExecCase.inputQueue_cases :
    t.inputQueue = s.inputQueue ∨ ∃ p x, i = .inp p ∧ s.inputQueue = x :: t.inputQueue := by
  cases h with
  | input p a x rest hi ht hq => exact .inr ⟨p, x, hi, by simpa using hq⟩
  | blocked => exact .inl rfl
  | fault | store | output | jump | fallThrough | halt => exact .inl (by simp)
  | adjust => exact .inl (by simp [State.adjustRb])

/-- What moves `ip` keeps `run`: the fault entry and `HLT` leave `ip` where it is (R111, R146). -/
theorem ExecCase.ip_eq_or_run_eq : t.engine.ip = s.engine.ip ∨ t.engine.run = s.engine.run := by
  cases h with
  | fault | halt => exact .inl (by simp)
  | blocked => exact .inl rfl
  | store | input | output | jump | fallThrough | adjust => exact .inr (by simp)

/-- `run` and the fault record change only by a fault entry, and `run` by `HLT` (R111, R146). -/
theorem ExecCase.run_and_record_cases :
    (∃ r, t = s.raise r) ∨ t.engine.record = s.engine.record ∧ (i ≠ .hlt → t.engine.run = s.engine.run) := by
  cases h with
  | fault r hr => exact .inl ⟨r, rfl⟩
  | halt hi => exact .inr ⟨by simp, fun hne => absurd hi hne⟩
  | blocked => exact .inr ⟨rfl, fun _ => rfl⟩
  | store | input | output | jump | fallThrough | adjust => exact .inr (by simp)

/-- All but `IN` and `OUT` change nothing outside the active engine (R84). -/
theorem ExecCase.eq_withEngine (hin : ∀ p, i ≠ .inp p) (hout : ∀ p, i ≠ .out p) : t = s.withEngine t.engine := by
  cases h with
  | input p a x rest hi ht hq => exact absurd hi (hin p)
  | output p x hi hv => exact absurd hi (hout p)
  | blocked => exact s.withEngine_engine_self.symm
  | store => rw [State.storeCell_advance, State.withEngine_engine]
  | adjust => rw [State.adjustRb_advance, State.withEngine_engine]
  | fault | jump | fallThrough | halt => exact congrArg s.withEngine (s.withEngine_engine _).symm

end

@[simp] theorem State.sendDownstream_schedule (s : State) (v : Word) : (s.sendDownstream v).schedule = s.schedule := by
  cases s with | mk sys a sc t => cases sys <;> rfl
@[simp] theorem State.sendDownstream_turn (s : State) (v : Word) : (s.sendDownstream v).turn = s.turn := by
  cases s with | mk sys a sc t => cases sys <;> rfl

/-- An instruction leaves the model's own fields alone (log 4). -/
theorem ExecFrame.ownFields_eq {s t : State} (h : ExecFrame s t) :
    t.active = s.active ∧ t.schedule = s.schedule ∧ t.turn = s.turn := by
  cases h with
  | engineOnly | takesInput | sendsValue => simp

/-! The frames. -/

theorem Instr.destination?_of_storing {i : Instr} {p1 p2 p3 : Operand}
    (hi : i ∈ [Instr.add p1 p2 p3, .mul p1 p2 p3, .lt p1 p2 p3, .eq p1 p2 p3]) : i.destination? = some (3, p3) := by
  simp only [List.mem_cons, List.not_mem_nil, or_false] at hi
  rcases hi with rfl | rfl | rfl | rfl <;> rfl

/-- A storing instruction ends with a fault entry or a store into its target, after which `ip` goes on. -/
theorem exec_storing_cases {i : Instr} {p1 p2 p3 : Operand}
    (hi : i ∈ [Instr.add p1 p2 p3, .mul p1 p2 p3, .lt p1 p2 p3, .eq p1 p2 p3]) {s s' : State}
    (h : exec i s = .next s') :
    (∃ r, s' = s.raise r) ∨ ∃ t v, s.target 3 p3 = .ok t ∧ s' = (s.storeCell t v).advance 4 := by
  obtain ⟨f, hf⟩ := exec_storing hi s
  rw [hf] at h
  rcases State.commit_next h with stored | ⟨r, -, raised⟩
  · obtain ⟨a, b, t, -, -, ht, hs'⟩ := State.storeResult_ok stored
    exact .inr ⟨t, f a b, ht, hs'⟩
  · exact .inl ⟨r, raised⟩

/-- Settles O33: the cell that changes is the target, and the store and the advance of `ip` are one engine update. -/
theorem storingInstructionsFrame : Obligations.StoringInstructionsFrame := by
  unfold Obligations.StoringInstructionsFrame
  intro p1 p2 p3 s s' i hi hexec
  rcases exec_storing_cases hi hexec with raised | ⟨t, v, ht, rfl⟩
  · exact .inl raised
  · have cells := (exec_cases hexec).readCell_eq_of_ne_target (Instr.destination?_of_storing hi) ht
    exact .inr ⟨t, ht, cells, by rw [State.storeCell_advance, State.withEngine_engine]⟩

/-- Settles O34: of the cases of executing an instruction, those that `IN` can lead to. -/
theorem inFrame : Obligations.InFrame := by
  unfold Obligations.InFrame
  intro p1 s s' hexec
  have hcase := exec_cases hexec
  have cells : ∀ t, s.target 1 p1 = .ok t → ∀ c, c ≠ t → s'.readCell c = s.readCell c :=
    fun t ht => hcase.readCell_eq_of_ne_target rfl ht
  cases hcase with
  | fault r hr => exact .inl ⟨r, rfl⟩
  | blocked => exact .inr (.inl rfl)
  | input p t x rest hi ht hq =>
    cases hi
    exact .inr (.inr ⟨t, x, ht, by simpa using hq, cells t ht, by simp [State.storeCell_advance]⟩)
  | store p a v hd ht => cases hd
  | output p x hi hv => cases hi
  | jump p1 p2 a hi hv => rcases hi with hi | hi <;> cases hi
  | fallThrough p1 p2 hi => rcases hi with hi | hi <;> cases hi
  | adjust p d hi hv => cases hi
  | halt hi => cases hi

/-- `HLT` leaves `ip` on its own word (R111). -/
theorem exec_hlt_ip {s s' : State} (h : exec .hlt s = .next s') : s'.engine.ip = s.engine.ip := by
  rw [exec_hlt] at h
  cases h
  simp

/-- Settles O35: none of the five has a destination operand or is `IN`; `ARB` and `OUT` stand in the list once each. -/
theorem nonStoringInstructionsFrame : Obligations.NonStoringInstructionsFrame := by
  unfold Obligations.NonStoringInstructionsFrame
  intro p1 p2 s s' i hi hexec
  have hcase := exec_cases hexec
  have noDestination : i.destination? = none := by
    simp only [List.mem_cons, List.not_mem_nil, or_false] at hi
    rcases hi with rfl | rfl | rfl | rfl | rfl <;> rfl
  have notIn : ∀ p, i ≠ .inp p := by rintro p rfl; cases noDestination
  have soleArb : i ≠ .arb p1 → ∀ p, i ≠ .arb p := by
    rintro hne p rfl
    exact hne (by simpa using hi)
  have soleOut : i ≠ .out p1 → ∀ p, i ≠ .out p := by
    rintro hne p rfl
    exact hne (by simpa using hi)
  obtain ⟨active, schedule, turn⟩ := hcase.frame.ownFields_eq
  refine ⟨hcase.mem_eq noDestination, fun c => hcase.readCell_eq (by simp [noDestination]), hcase.engine_memWords, ?_,
    fun hne => hcase.rb_eq (soleArb hne), fun hne => ?_, ?_, active, schedule, turn, hcase.run_and_record_cases,
    fun hne => hcase.eq_withEngine notIn (soleOut hne)⟩
  · rcases hcase.inputQueue_cases with same | ⟨p, -, hp, -⟩
    · exact same
    · exact absurd hp (notIn p)
  · rcases hcase.outlog_cases with same | ⟨p, -, hp, -⟩
    · exact same
    · exact absurd hp (soleOut hne p)
  · rintro rfl
    exact exec_hlt_ip hexec

/-- Settles O36: each piece of state has its own bound. -/
theorem sideEffectsAreBounded : Obligations.SideEffectsAreBounded := by
  unfold Obligations.SideEffectsAreBounded
  intro i s s' hexec
  have hcase := exec_cases hexec
  refine ⟨fun c => hcase.readCell_eq, fun changed => ?_, hcase.inputQueue_cases.resolve_left,
    hcase.outlog_cases.resolve_left, hcase.ip_eq_or_run_eq.resolve_left⟩
  by_contra notArb
  exact changed (hcase.rb_eq fun p hp => notArb ⟨p, hp⟩)

end Sys2Proof.Machine
end

section
/-! The step (R80, R85, R86) and what it is made of: the operands of each mode (R81, R82) and the transitions (R83). -/

namespace Sys2Proof.Machine

/-! Every step answers a next state. -/

theorem State.commit_answers (s : State) (r : Except FaultRecord State) : ∃ t, s.commit r = .next t := by
  cases r with
  | ok s' => exact ⟨s', rfl⟩
  | error f => exact ⟨s.raise f, rfl⟩

/-- `IN` answers a next state whether its target faults, its port is empty, or a value is taken (R95). -/
theorem execIn_answers (p : Operand) (s : State) : ∃ t, execIn p s = .next t := by
  unfold execIn
  split
  · exact ⟨_, rfl⟩
  · split <;> exact ⟨_, rfl⟩

theorem exec_answers (i : Instr) (s : State) : ∃ t, exec i s = .next t := by
  cases i with
  | inp p => exact execIn_answers p s
  | hlt => exact ⟨s.halt, exec_hlt s⟩
  | add | mul | lt | eq | out | jt | jf | arb => exact s.commit_answers _

theorem State.stepActive_of_ok {s : State} {i : Instr} (h : s.fetchInstr = .ok i) : s.stepActive = exec i s := by
  rw [State.stepActive, h]

theorem State.stepActive_of_error {s : State} {r : FaultRecord} (h : s.fetchInstr = .error r) :
    s.stepActive = .next (s.raise r) := by
  rw [State.stepActive, h]

theorem State.stepActive_answers (s : State) : ∃ t, s.stepActive = .next t := by
  cases h : s.fetchInstr with
  | ok i =>
    rw [State.stepActive_of_ok h]
    exact exec_answers i s
  | error r => exact ⟨_, State.stepActive_of_error h⟩

theorem step_of_selectStage {s : State} {k : Stage} (h : s.selectStage = some k) :
    step s = (s.turnTo k).stepActive := by
  rw [step, h]

/-- Settles O17: with no stage selected the state is its own next state, and a selected stage answers one. -/
theorem stepAlwaysAnswersNext : Obligations.StepAlwaysAnswersNext := by
  unfold Obligations.StepAlwaysAnswersNext
  intro s
  cases h : s.selectStage with
  | none => exact ⟨s, (noEnabledStepKeepsTheState s).1 h⟩
  | some k =>
    rw [step_of_selectStage h]
    exact (s.turnTo k).stepActive_answers

/-! What a step runs, and when it is enabled. -/

/-- Settles O15: the step of the selected stage is its decoded instruction or its fault of decode. -/
theorem stepRunsTheDecodedInstruction : Obligations.StepRunsTheDecodedInstruction := by
  unfold Obligations.StepRunsTheDecodedInstruction
  intro s k selected
  rw [step_of_selectStage selected]
  refine ⟨fun i => State.stepActive_of_ok, fun r => State.stepActive_of_error, ?_⟩
  cases hs : s.system with
  | single e q => simp [State.isNetwork, State.turnTo, hs]
  | network st f => simp [State.isNetwork, State.turnTo, hs]

/-- A FIFO is open exactly while its producer is Running (R127). -/
theorem fifoClosed_eq_false {st : PerStage Engine} {k : Stage} :
    fifoClosed st k = false ↔ (st.get k.prev).run = .running := by
  simp [fifoClosed, Engine.terminated]

/-- Settles O18: a Buffered port is never waited for; a stage waits for its own FIFO while that is empty and open. -/
theorem enabledExactlyWhenNotWaiting : Obligations.EnabledExactlyWhenNotWaiting := by
  unfold Obligations.EnabledExactlyWhenNotWaiting
  intro s k
  refine ⟨fun e q hs => State.enabled_single hs k, fun st f hs => ?_⟩
  rw [State.enabled_network hs, Bool.eq_false_iff, ne_eq, State.blocked_iff, State.from_inputQueue hs,
    State.from_inputClosed hs, fifoClosed_eq_false]

/-! Operands and transitions. -/

theorem State.val_immediate (s : State) (v : Word) : s.val ⟨.immediate, v⟩ = .ok v := rfl
theorem State.val_address (s : State) (v : Word) : s.val ⟨.address, v⟩ = s.memRead v.toInt .read := rfl
theorem State.val_relative (s : State) (v : Word) :
    s.val ⟨.relative, v⟩ = s.memRead (s.engine.rb.toInt + v.toInt) .read := rfl

/-- Settles O12: one equation for each mode. -/
theorem sourceOperandValue : Obligations.SourceOperandValue := by
  unfold Obligations.SourceOperandValue
  intro s v
  exact ⟨s.val_immediate v, s.val_address v, s.val_relative v⟩

/-- An operand with an effective address has that address checked for writing (R82). -/
theorem State.target_of_effectiveAddress {s : State} {p : Operand} {a : Int} (h : s.effectiveAddress? p = some a)
    (k : Nat) : s.target k p = checkAddress s.engine.memWords a .write := by
  rw [State.target, h]

/-- Settles O13: an Immediate operand has no address; of the other modes the address is checked. -/
theorem destinationOperandAddress : Obligations.DestinationOperandAddress := by
  unfold Obligations.DestinationOperandAddress
  intro s k v
  refine ⟨s.target_immediate k v, fun m a hma => ?_⟩
  have address : s.effectiveAddress? ⟨m, v⟩ = some a := by
    rcases hma with ⟨rfl, rfl⟩ | ⟨rfl, rfl⟩ <;> rfl
  rw [State.target_of_effectiveAddress address]
  exact ⟨checkAddress_negative .write, checkAddress_above .write, checkAddress_in⟩

/-- Settles O21: each transition is one engine update, the two of `AdjustRelative` included. -/
theorem transitionEffects : Obligations.TransitionEffects := by
  unfold Obligations.TransitionEffects
  intro s n v
  exact ⟨rfl, rfl, s.adjustRb_advance v n, rfl⟩

end Sys2Proof.Machine
end

section
/-! Storing instructions that complete (R83, R84): on readable sources and a writable destination the result of the
operation is stored and `ip` goes on. `ADD` (R90) and `MUL` (R91) are this for the wrapped sum and the wrapped product. -/

namespace Sys2Proof.Machine

/-- Moving `ip` on changes no cell (R83). -/
@[simp] theorem State.readCell_advance (s : State) (n c : Nat) : (s.advance n).readCell c = s.readCell c := by
  simp [State.readCell]

/-- A store followed by the advance of `ip` changes the stored cell and `ip` only (R84). -/
theorem State.storesAndContinues_storeCell_advance {s : State} (wf : s.engine.mem.wf = true) (t : Nat) (v : Word)
    (n : Nat) : s.storesAndContinues ((s.storeCell t v).advance n) t v n := by
  refine ⟨?_, ?_, fun c hc => ?_, ?_⟩
  · rw [State.readCell_advance, State.readCell_storeCell_self wf]
  · rw [State.storeCell_advance, State.withEngine_engine]
  · rw [State.readCell_advance, State.readCell_storeCell_ne s v hc]
  · rw [State.storeCell_advance, State.withEngine_engine]

/-- What every storing instruction does when its operands are good: both sources have a value, the destination has a
target, and the operation's result is stored there. -/
theorem State.storeResult_completes {s : State} {p1 p2 p3 : Operand} (wf : s.engine.mem.wf = true)
    (h1 : s.readable p1 = true) (h2 : s.readable p2 = true) (h3 : s.writable p3 = true) (f : Word → Word → Word)
    (n : Nat) :
    ∃ a b t s', s.val p1 = .ok a ∧ s.val p2 = .ok b ∧ s.target 3 p3 = .ok t ∧
      s.commit (s.storeResult f p1 p2 p3 n) = .next s' ∧ s.storesAndContinues s' t (f a b) n := by
  obtain ⟨a, ha⟩ := State.readable_val h1
  obtain ⟨b, hb⟩ := State.readable_val h2
  obtain ⟨t, ht⟩ := State.writable_target 3 h3
  refine ⟨a, b, t, (s.storeCell t (f a b)).advance n, ha, hb, ht, ?_,
    State.storesAndContinues_storeCell_advance wf t (f a b) n⟩
  rw [State.storeResult_of_val ha hb, ht, Except.map, State.commit]

/-- `ADD` commits the store of the wrapped sum (R90). -/
theorem exec_add (p1 p2 p3 : Operand) (s : State) :
    exec (.add p1 p2 p3) s = s.commit (s.storeResult addWords p1 p2 p3 4) := rfl

/-- `MUL` commits the store of the wrapped product (R91). -/
theorem exec_mul (p1 p2 p3 : Operand) (s : State) :
    exec (.mul p1 p2 p3) s = s.commit (s.storeResult mulWords p1 p2 p3 4) := rfl

/-- Settles O22: a storing instruction whose operation is the wrapped sum. -/
theorem addStoresTheWrappedSum : Obligations.AddStoresTheWrappedSum := by
  unfold Obligations.AddStoresTheWrappedSum
  intro p1 p2 p3 s wf h1 h2 h3
  rw [exec_add]
  exact State.storeResult_completes wf h1 h2 h3 addWords 4

/-- Settles O23: a storing instruction whose operation is the wrapped product. -/
theorem mulStoresTheWrappedProduct : Obligations.MulStoresTheWrappedProduct := by
  unfold Obligations.MulStoresTheWrappedProduct
  intro p1 p2 p3 s wf h1 h2 h3
  rw [exec_mul]
  exact State.storeResult_completes wf h1 h2 h3 mulWords 4

end Sys2Proof.Machine
end

section
/-! Source operands that fault (R88, R96, R100, R101, R110): what `OUT`, `ARB` and the jumps commit, and that a fault of
an operand they read is the fault they take. -/

namespace Sys2Proof.Machine

/-- `OUT` commits the emission of its operand's value (R96). -/
theorem exec_out (p : Operand) (s : State) :
    exec (.out p) s = s.commit ((s.val p).map fun x => (s.emitOutput x).advance 2) := rfl

/-- `ARB` commits the adjustment of `rb` by its operand's value (R110). -/
theorem exec_arb (p : Operand) (s : State) :
    exec (.arb p) s = s.commit ((s.val p).map fun d => (s.adjustRb d).advance 2) := rfl

/-- `JT` commits the jump on a non-zero condition (R100). -/
theorem exec_jt (p1 p2 : Operand) (s : State) : exec (.jt p1 p2) s = s.commit (s.jumpWhen nonZero p1 p2 3) := rfl

/-- `JF` commits the jump on the Word 0 (R101). -/
theorem exec_jf (p1 p2 : Operand) (s : State) :
    exec (.jf p1 p2) s = s.commit (s.jumpWhen (fun c => !nonZero c) p1 p2 3) := rfl

section
variable {s : State} {p1 : Operand}

/-- A condition that cannot be read is the fault of the jump (R100, R101). -/
theorem State.jumpWhen_of_val_error {r : FaultRecord} (h1 : s.val p1 = .error r) (taken : Word → Bool) (p2 : Operand)
    (n : Nat) : s.jumpWhen taken p1 p2 n = .error r := by
  rw [State.jumpWhen, h1]
  rfl

/-- A jump that is taken is decided by its target operand (R102). -/
theorem State.jumpWhen_of_taken {c : Word} (h1 : s.val p1 = .ok c) {taken : Word → Bool} (ht : taken c = true)
    (p2 : Operand) (n : Nat) : s.jumpWhen taken p1 p2 n = (s.val p2).map s.setIp := by
  rw [State.jumpWhen, h1]
  simp only [bind, Except.bind, ht, if_true]
  cases s.val p2 <;> rfl

/-- `OUT`, `ARB`, `JT` and `JF` take the fault of their first operand. -/
theorem exec_of_val_error {p2 : Operand} {r : FaultRecord} (h1 : s.val p1 = .error r) :
    ∀ i ∈ [Instr.out p1, .arb p1, .jt p1 p2, .jf p1 p2], exec i s = .next (s.raise r) := by
  intro i hi
  simp only [List.mem_cons, List.not_mem_nil, or_false] at hi
  rcases hi with rfl | rfl | rfl | rfl
  · rw [exec_out, h1, Except.map, State.commit]
  · rw [exec_arb, h1, Except.map, State.commit]
  · rw [exec_jt, State.jumpWhen_of_val_error h1, State.commit]
  · rw [exec_jf, State.jumpWhen_of_val_error h1, State.commit]

/-- A jump that is taken faults with its target operand (R102). -/
theorem State.commit_jumpWhen_of_target_error {c : Word} {p2 : Operand} {r : FaultRecord} (h1 : s.val p1 = .ok c)
    (h2 : s.val p2 = .error r) {taken : Word → Bool} (ht : taken c = true) (n : Nat) :
    s.commit (s.jumpWhen taken p1 p2 n) = .next (s.raise r) := by
  rw [State.jumpWhen_of_taken h1 ht, h2, Except.map, State.commit]

end

/-- Settles O43: the first operand is read by all four, the second by a jump whose condition holds. -/
theorem sourceOperandFaults : Obligations.SourceOperandFaults := by
  unfold Obligations.SourceOperandFaults
  intro p1 p2 s r
  refine ⟨exec_of_val_error, fun c h1 h2 => ⟨fun nonzero => ?_, fun zero => ?_⟩⟩
  · rw [exec_jt]
    exact State.commit_jumpWhen_of_target_error h1 h2 (decide_eq_true nonzero) 3
  · rw [exec_jf]
    exact State.commit_jumpWhen_of_target_error h1 h2 (by simp [nonZero, zero]) 3

end Sys2Proof.Machine
end

section
/-! Input and output (42_io.md). `IN` (R95) on a target that passes its checks goes by the port's answer; `OUT` (R96)
logs the value of its operand and, in a network, hands it to the next stage. -/

namespace Sys2Proof.Machine

/-! `IN`. -/

section
variable {s : State}

/-- A port that holds a value delivers the oldest (R121, R124). -/
theorem State.nextInput_of_cons {x : Word} {rest : List Word} (hq : s.inputQueue = x :: rest) :
    s.nextInput = .value x (s.withInputQueue rest) := by
  rw [State.nextInput, hq]

/-- An empty port is Starved when nothing can be added to it any more, else Blocked (R121, R124). -/
theorem State.nextInput_of_nil (hq : s.inputQueue = []) :
    s.nextInput = if s.inputClosed then .starved else .blocked := by
  rw [State.nextInput, hq]

variable {p : Operand} {t : Nat} (ht : s.target 1 p = .ok t)
include ht

/-- `IN` with a value takes it, stores it in the target and goes on (R95). -/
theorem exec_inp_of_cons {x : Word} {rest : List Word} (hq : s.inputQueue = x :: rest) :
    exec (.inp p) s = .next (((s.withInputQueue rest).storeCell t x).advance 2) := by
  rw [exec, execIn, ht, State.nextInput_of_cons hq]
  rfl

/-- `IN` on an empty port that stays empty is InputStarvation (R95, R148). -/
theorem exec_inp_of_starved (hq : s.inputQueue = []) (hc : s.inputClosed = true) :
    exec (.inp p) s = .next (s.raise .inputStarvation) := by
  rw [exec, execIn, ht, State.nextInput_of_nil hq, hc]
  rfl

/-- `IN` on an empty port that may still be filled changes nothing (R86; log 7). -/
theorem exec_inp_of_blocked (hq : s.inputQueue = []) (hc : s.inputClosed = false) : exec (.inp p) s = .next s := by
  rw [exec, execIn, ht, State.nextInput_of_nil hq, hc]
  rfl

end

/-- Settles O26: after the oldest value is taken, `IN` is a store that goes on. -/
theorem inStoresTheOldestInput : Obligations.InStoresTheOldestInput := by
  unfold Obligations.InStoresTheOldestInput
  intro p1 s x rest wf writable hq
  obtain ⟨t, ht⟩ := State.writable_target 1 writable
  have wf' : (s.withInputQueue rest).engine.mem.wf = true := by rwa [State.withInputQueue_engine]
  exact ⟨t, _, ht, exec_inp_of_cons ht hq, by simp, State.storesAndContinues_storeCell_advance wf' t x 2⟩

/-- Settles O27: the target is checked before the port is asked, and an empty port is Starved or Blocked. -/
theorem inWithoutAValue : Obligations.InWithoutAValue := by
  unfold Obligations.InWithoutAValue
  intro p1 s
  refine ⟨fun r => exec_inp_of_target_error, fun writable hq hc => ?_, fun writable hq hc => ?_⟩
  · obtain ⟨t, ht⟩ := State.writable_target 1 writable
    exact exec_inp_of_starved ht hq hc
  · obtain ⟨t, ht⟩ := State.writable_target 1 writable
    exact exec_inp_of_blocked ht hq hc

/-! `OUT`. -/

/-- A Buffered port sends nothing on (R122). -/
theorem State.sendDownstream_withEngine_single {s : State} {e0 : Engine} {q : List Word} (hs : s.system = .single e0 q)
    (v : Word) (e : Engine) : (s.sendDownstream v).withEngine e = { s with system := .single e q } := by
  simp [State.sendDownstream, State.withEngine, State.withEngineAt, hs]

/-- A Channel port appends to the FIFO of the next stage, whatever that stage's run state (R125). -/
theorem State.sendDownstream_withEngine_network {s : State} {st : PerStage Engine} {f : PerStage (List Word)}
    (hs : s.system = .network st f) (v : Word) (e : Engine) :
    (s.sendDownstream v).withEngine e =
      { s with system := .network (st.set s.active e) (f.set s.active.next (f.get s.active.next ++ [v])) } := by
  simp [State.sendDownstream, State.withEngine, State.withEngineAt, hs]

/-- `OUT` with a value emits it and goes on (R96). -/
theorem exec_out_of_val {s : State} {p : Operand} {x : Word} (hv : s.val p = .ok x) :
    exec (.out p) s =
      .next ((s.sendDownstream x).withEngine
        { s.engine with outlog := s.engine.outlog ++ [x], ip := wrap64 (s.engine.ip.toInt + 2) }) := by
  rw [exec_out, hv, Except.map, State.commit, State.emitOutput_advance]
  rfl

/-- Settles O28: the log and `ip` are one engine update; what goes downstream is the port's, by the kind of system. -/
theorem outEmitsTheValueOnce : Obligations.OutEmitsTheValueOnce := by
  unfold Obligations.OutEmitsTheValueOnce
  intro p1 s readable
  obtain ⟨x, hv⟩ := State.readable_val readable
  refine ⟨x, _, hv, exec_out_of_val hv, State.withEngine_engine .., fun e q hs => ?_, fun st f hs => ?_⟩
  · rw [State.withEngine_engine, State.sendDownstream_withEngine_single hs]
  · rw [State.withEngine_engine, State.sendDownstream_withEngine_network hs]

end Sys2Proof.Machine
end

section
/-! Jumps that complete (43_jumps.md): on a condition that has a value, a jump that is taken sets `ip` to the value of
its target operand, and one that is not taken goes on without resolving it (R102). `JT` (R100) and `JF` (R101) are this
for the two tests of the condition. -/

namespace Sys2Proof.Machine

/-- The Word 0 is the one condition that is false (R100, R101). -/
theorem nonZero_zero : nonZero 0 = false := decide_eq_false (not_not_intro rfl)

theorem nonZero_of_ne_zero {c : Word} (hc : c ≠ 0) : nonZero c = true := decide_eq_true hc

section
variable {s : State} {p1 : Operand} {c : Word} (h1 : s.val p1 = .ok c) {taken : Word → Bool}
include h1

/-- A jump that is not taken goes on, whatever its target operand (R102). -/
theorem State.jumpWhen_of_not_taken (ht : taken c = false) (p2 : Operand) (n : Nat) :
    s.jumpWhen taken p1 p2 n = .ok (s.advance n) := by
  rw [State.jumpWhen, h1]
  simp only [bind, Except.bind, ht, Bool.false_eq_true, if_false]
  rfl

/-- A jump that is taken on a readable target operand changes `ip` only, to the operand's value (R83, R102). -/
theorem State.commit_jumpWhen_of_taken (ht : taken c = true) {p2 : Operand} (h2 : s.readable p2 = true) (n : Nat) :
    ∃ a, s.val p2 = .ok a ∧
      s.commit (s.jumpWhen taken p1 p2 n) = .next (s.withEngine { s.engine with ip := a }) := by
  obtain ⟨a, ha⟩ := State.readable_val h2
  exact ⟨a, ha, by rw [State.jumpWhen_of_taken h1 ht, ha, Except.map, State.commit, State.setIp]⟩

/-- A jump that is not taken changes `ip` only, by the width (R83, R102). -/
theorem State.commit_jumpWhen_of_not_taken (ht : taken c = false) (p2 : Operand) (n : Nat) :
    s.commit (s.jumpWhen taken p1 p2 n) =
      .next (s.withEngine { s.engine with ip := wrap64 (s.engine.ip.toInt + n) }) := by
  rw [State.jumpWhen_of_not_taken h1 ht, State.commit, State.advance, State.setIp]

end

/-- Settles O29: the jump is taken exactly on a non-zero condition. -/
theorem jtJumpsOnNonZero : Obligations.JtJumpsOnNonZero := by
  unfold Obligations.JtJumpsOnNonZero
  intro p1 p2 s c h1
  rw [exec_jt]
  refine ⟨fun nonzero h2 => ?_, ?_⟩
  · exact State.commit_jumpWhen_of_taken h1 (nonZero_of_ne_zero nonzero) h2 3
  · rintro rfl
    exact State.commit_jumpWhen_of_not_taken h1 nonZero_zero p2 3

/-- Settles O30: the jump is taken exactly on the Word 0. -/
theorem jfJumpsOnZero : Obligations.JfJumpsOnZero := by
  unfold Obligations.JfJumpsOnZero
  intro p1 p2 s c h1
  rw [exec_jf]
  refine ⟨?_, fun nonzero => ?_⟩
  · rintro rfl h2
    exact State.commit_jumpWhen_of_taken h1 (by rw [nonZero_zero, Bool.not_false]) h2 3
  · exact State.commit_jumpWhen_of_not_taken h1 (by rw [nonZero_of_ne_zero nonzero, Bool.not_true]) p2 3

end Sys2Proof.Machine
end

section
/-! Comparisons (44_compare.md): `LT` (R105) and `EQ` (R106) are storing instructions whose operation is a test of the two
operand values, the signed comparison and the equality of the Words. Its result is the Word 1 or the Word 0, and it is
stored in either case. -/

namespace Sys2Proof.Machine

/-- A comparison's result is 1 when the tested proposition holds, else 0 (R26). -/
theorem testResult_decide (P : Prop) [Decidable P] : testResult (decide P) = if P then 1 else 0 := by
  by_cases holds : P
  · rw [decide_eq_true holds, if_pos holds]
    rfl
  · rw [decide_eq_false holds, if_neg holds]
    rfl

/-- The test of `LT` is the order of the signed values (R105). -/
theorem testResult_signedLess (a b : Word) : testResult (signedLess a b) = if a.toInt < b.toInt then 1 else 0 :=
  testResult_decide _

/-- The test of `EQ` is the equality of all 64 bits (R106). -/
theorem testResult_wordsEqual (a b : Word) : testResult (wordsEqual a b) = if a = b then 1 else 0 :=
  testResult_decide _

/-- `LT` commits the store of the result of the signed comparison (R105). -/
theorem exec_lt (p1 p2 p3 : Operand) (s : State) :
    exec (.lt p1 p2 p3) s = s.commit (s.storeResult (fun a b => testResult (signedLess a b)) p1 p2 p3 4) := rfl

/-- `EQ` commits the store of the result of the test of equality (R106). -/
theorem exec_eq (p1 p2 p3 : Operand) (s : State) :
    exec (.eq p1 p2 p3) s = s.commit (s.storeResult (fun a b => testResult (wordsEqual a b)) p1 p2 p3 4) := rfl

/-- Settles O24: a storing instruction whose operation is the signed comparison. -/
theorem ltStoresTheSignedComparison : Obligations.LtStoresTheSignedComparison := by
  unfold Obligations.LtStoresTheSignedComparison
  intro p1 p2 p3 s wf h1 h2 h3
  simp only [exec_lt, ← testResult_signedLess]
  exact State.storeResult_completes wf h1 h2 h3 (fun a b => testResult (signedLess a b)) 4

/-- Settles O25: a storing instruction whose operation is the test of equality. -/
theorem eqStoresTheEquality : Obligations.EqStoresTheEquality := by
  unfold Obligations.EqStoresTheEquality
  intro p1 p2 p3 s wf h1 h2 h3
  simp only [exec_eq, ← testResult_wordsEqual]
  exact State.storeResult_completes wf h1 h2 h3 (fun a b => testResult (wordsEqual a b)) 4

end Sys2Proof.Machine
end

section
/-! Relative base and halt (45_relbase_halt.md): `ARB` (R110) on an operand that has a value, and `HLT` (R111), each as
the one engine update it makes. -/

namespace Sys2Proof.Machine

/-- `ARB` with a value adjusts `rb` by it and goes on (R110). The value is read from `s`, thus under the old `rb`. -/
theorem exec_arb_of_val {s : State} {p : Operand} {d : Word} (hv : s.val p = .ok d) :
    exec (.arb p) s =
      .next (s.withEngine
        { s.engine with rb := wrap64 (s.engine.rb.toInt + d.toInt), ip := wrap64 (s.engine.ip.toInt + 2) }) := by
  rw [exec_arb, hv, Except.map, State.commit, State.adjustRb_advance]
  rfl

/-- Settles O31: a readable operand has a value, and `ARB` with a value adjusts `rb` and advances `ip` in one update. -/
theorem arbAddsToTheRelativeBase : Obligations.ArbAddsToTheRelativeBase := by
  unfold Obligations.ArbAddsToTheRelativeBase
  intro p1 s readable
  obtain ⟨d, hv⟩ := State.readable_val readable
  exact ⟨d, hv, exec_arb_of_val hv⟩

/-- Settles O32: `HLT` is the halting transition, which updates `run` of the active engine and nothing else. -/
theorem hltHaltsAndKeepsTheRest : Obligations.HltHaltsAndKeepsTheRest := by
  unfold Obligations.HltHaltsAndKeepsTheRest
  intro s
  rw [exec_hlt, State.halt]

end Sys2Proof.Machine
end

section
/-! What a stage's step does (R132, R135, R137), as data: the engine after it, how many values it takes from its own
FIFO, and the values it adds to the next one. The engine and what the port answers decide it. -/

namespace Sys2Proof.Machine

/-- What one step of the active engine does to the system. -/
structure StageEffect where
  /-- The engine after the step. -/
  engine : Engine
  /-- How many of the oldest input values the step takes. -/
  taken : Nat
  /-- The values the step sends downstream. -/
  sent : List Word

/-- The FIFOs after stage `k` had the effect `x` on them (R124, R125). -/
def fifosAfter (f : PerStage (List Word)) (k : Stage) (x : StageEffect) : PerStage (List Word) :=
  (f.set k ((f.get k).drop x.taken)).set k.next (f.get k.next ++ x.sent)

/-- The system after stage `k` had the effect `x` on it; a Buffered port sends nothing on. -/
def System.after (sys : System) (k : Stage) (x : StageEffect) : System :=
  match sys with
  | .single _ q => .single x.engine (q.drop x.taken)
  | .network st f => .network (st.set k x.engine) (fifosAfter f k x)

/-- The state after the active engine had the effect `x`. -/
def State.withEffect (s : State) (x : StageEffect) : State := { s with system := s.system.after s.active x }

@[simp] theorem State.withEffect_system (s : State) (x : StageEffect) :
    (s.withEffect x).system = s.system.after s.active x := rfl

/-! The model's updates as effects. -/

theorem State.withEngine_eq_withEffect (s : State) (e : Engine) : s.withEngine e = s.withEffect ⟨e, 0, []⟩ := by
  cases s with | mk sys a sc t =>
  cases sys with
  | single => rfl
  | network st f => simp [State.withEngine, State.withEngineAt, State.withEffect, System.after, fifosAfter]

theorem State.sendDownstream_withEngine_eq_withEffect (s : State) (v : Word) (e : Engine) :
    (s.sendDownstream v).withEngine e = s.withEffect ⟨e, 0, [v]⟩ := by
  cases s with | mk sys a sc t =>
  cases sys with
  | single => rfl
  | network st f =>
    rw [State.sendDownstream_withEngine_network rfl]
    simp [State.withEffect, System.after, fifosAfter]

theorem State.withInputQueue_withEngine_eq_withEffect {s : State} {x : Word} {rest : List Word}
    (hq : s.inputQueue = x :: rest) (e : Engine) : (s.withInputQueue rest).withEngine e = s.withEffect ⟨e, 1, []⟩ := by
  cases s with | mk sys a sc t =>
  cases sys with
  | single e0 q => cases hq; rfl
  | network st f =>
    have queue : f.get a = x :: rest := hq
    have next : f.get a.next = (f.set a rest).get a.next := (PerStage.get_set_ne f rest (Stage.next_ne a)).symm
    simp [State.withInputQueue, State.withEngine, State.withEngineAt, State.withEffect, System.after, fifosAfter, queue,
      next]

/-! Instructions that do not use the port: the active engine alone decides the engine after them. -/

/-- From every state with the active engine of `s`, `g` takes the same fault or makes the same engine update. -/
def DecidedByEngine (s : State) (g : State → Except FaultRecord State) : Prop :=
  ∃ r : Except FaultRecord Engine, ∀ u : State, u.engine = s.engine → g u = r.map u.withEngine

section
variable {s u : State} (hu : u.engine = s.engine)
include hu

theorem State.raise_congr (r : FaultRecord) :
    u.raise r = u.withEngine { s.engine with run := .faulted, record := r } := by rw [State.raise, hu]
theorem State.setIp_congr (v : Word) : u.setIp v = u.withEngine { s.engine with ip := v } := by rw [State.setIp, hu]
theorem State.advance_congr (n : Nat) :
    u.advance n = u.withEngine { s.engine with ip := wrap64 (s.engine.ip.toInt + n) } := by
  rw [State.advance, hu, State.setIp_congr hu]
end

theorem storeResult_decidedByEngine (s : State) (f : Word → Word → Word) (p1 p2 p3 : Operand) (n : Nat) :
    DecidedByEngine s fun u => u.storeResult f p1 p2 p3 n := by
  refine ⟨do
    let a ← s.val p1
    let b ← s.val p2
    let t ← s.target 3 p3
    .ok { s.engine with mem := s.engine.mem.write t (f a b), ip := wrap64 (s.engine.ip.toInt + n) }, fun u hu => ?_⟩
  simp only [State.storeResult, State.val_congr hu, State.target_congr hu, State.applyTransition,
    State.storeCell_advance, hu]
  cases s.val p1 with
  | error r => rfl
  | ok a =>
    cases s.val p2 with
    | error r => rfl
    | ok b => cases s.target 3 p3 <;> rfl

theorem jumpWhen_decidedByEngine (s : State) (taken : Word → Bool) (p1 p2 : Operand) (n : Nat) :
    DecidedByEngine s fun u => u.jumpWhen taken p1 p2 n := by
  cases h1 : s.val p1 with
  | error r =>
    exact ⟨.error r, fun u hu => State.jumpWhen_of_val_error (by rw [State.val_congr hu, h1]) taken p2 n⟩
  | ok c =>
    cases hc : taken c with
    | false =>
      refine ⟨.ok { s.engine with ip := wrap64 (s.engine.ip.toInt + n) }, fun u hu => ?_⟩
      simp only [State.jumpWhen_of_not_taken (by rw [State.val_congr hu, h1]) hc, State.advance_congr hu, Except.map]
    | true =>
      refine ⟨(s.val p2).map fun a => { s.engine with ip := a }, fun u hu => ?_⟩
      simp only [State.jumpWhen_of_taken (by rw [State.val_congr hu, h1]) hc, State.val_congr hu,
        funext (State.setIp_congr hu)]
      cases s.val p2 <;> rfl

theorem adjustRb_decidedByEngine (s : State) (p : Operand) (n : Nat) :
    DecidedByEngine s fun u => (u.val p).map fun d => (u.adjustRb d).advance n := by
  refine ⟨(s.val p).map fun d =>
    { s.engine with rb := wrap64 (s.engine.rb.toInt + d.toInt), ip := wrap64 (s.engine.ip.toInt + n) }, fun u hu => ?_⟩
  simp only [State.adjustRb_advance, hu, State.val_congr hu]
  cases s.val p <;> rfl

/-! The whole step: the active engine decides it, and what the port answers where it is asked. -/

/-- The next step asks the port: it is an `IN` whose destination passes `target` (R95). -/
def State.asksPort (s : State) : Prop := ∃ p t, s.fetchInstr = .ok (.inp p) ∧ s.target 1 p = .ok t

/-- `u` is like `s` in all that the next step of the active engine can see. -/
structure SeesAlike (s u : State) : Prop where
  engine : u.engine = s.engine
  /-- Both ports deliver the same value, or both have none. -/
  head : s.asksPort → u.inputQueue.head? = s.inputQueue.head?
  /-- Ports that have none are both closed or neither is. -/
  closed : s.asksPort → s.inputQueue = [] → u.inputClosed = s.inputClosed

theorem SeesAlike.refl (s : State) : SeesAlike s s := ⟨rfl, fun _ => rfl, fun _ _ => rfl⟩

/-- `m` has one effect, the same on every state that is like `s`; it takes no more values than there are. -/
def HasEffect (s : State) (m : State → Host.Outcome State Fault Refusal) : Prop :=
  ∃ x : StageEffect, x.taken ≤ s.inputQueue.length ∧ ∀ u : State, SeesAlike s u → m u = .next (u.withEffect x)

section
variable {s : State} {m : State → Host.Outcome State Fault Refusal}

theorem hasEffect_of_withEngine (e : Engine) (h : ∀ u : State, SeesAlike s u → m u = .next (u.withEngine e)) :
    HasEffect s m :=
  ⟨⟨e, 0, []⟩, Nat.zero_le _, fun u hu => by rw [h u hu, State.withEngine_eq_withEffect]⟩

theorem hasEffect_of_raise (r : FaultRecord) (h : ∀ u : State, SeesAlike s u → m u = .next (u.raise r)) :
    HasEffect s m :=
  hasEffect_of_withEngine { s.engine with run := .faulted, record := r } fun u hu => by
    rw [h u hu, State.raise_congr hu.engine]

theorem commit_hasEffect {g : State → Except FaultRecord State} (h : DecidedByEngine s g) :
    HasEffect s fun u => u.commit (g u) := by
  obtain ⟨r, h⟩ := h
  cases r with
  | ok e => exact hasEffect_of_withEngine e fun u hu => by rw [h u hu.engine, Except.map, State.commit]
  | error f => exact hasEffect_of_raise f fun u hu => by rw [h u hu.engine, Except.map, State.commit]

/-- `IN`: its target is decided by the active engine, and its port is asked only after the target passed (R95). -/
theorem exec_inp_hasEffect {p : Operand} (hf : s.fetchInstr = .ok (.inp p)) : HasEffect s (exec (.inp p)) := by
  have target : ∀ {u : State}, SeesAlike s u → u.target 1 p = s.target 1 p := fun hu => State.target_congr hu.engine 1 p
  cases ht : s.target 1 p with
  | error r => exact hasEffect_of_raise r fun u hu => exec_inp_of_target_error ((target hu).trans ht)
  | ok t =>
    have asks : s.asksPort := ⟨p, t, hf, ht⟩
    cases hq : s.inputQueue with
    | cons v rest =>
      refine ⟨⟨{ s.engine with mem := s.engine.mem.write t v, ip := wrap64 (s.engine.ip.toInt + 2) }, 1, []⟩,
        by simp [hq], fun u hu => ?_⟩
      obtain ⟨rest', hq'⟩ := List.head?_eq_some_iff.mp ((hu.head asks).trans (congrArg List.head? hq))
      rw [exec_inp_of_cons ((target hu).trans ht) hq', State.storeCell_advance, State.withInputQueue_engine, hu.engine,
        State.withInputQueue_withEngine_eq_withEffect hq']
      rfl
    | nil =>
      have empty : ∀ {u : State}, SeesAlike s u → u.inputQueue = [] := fun hu =>
        List.head?_eq_none_iff.mp ((hu.head asks).trans (congrArg List.head? hq))
      cases hc : s.inputClosed with
      | true =>
        exact hasEffect_of_raise .inputStarvation fun u hu =>
          exec_inp_of_starved ((target hu).trans ht) (empty hu) ((hu.closed asks hq).trans hc)
      | false =>
        refine hasEffect_of_withEngine s.engine fun u hu => ?_
        rw [exec_inp_of_blocked ((target hu).trans ht) (empty hu) ((hu.closed asks hq).trans hc), ← hu.engine,
          State.withEngine_engine_self]

/-- `OUT`: the value it sends is decided by the active engine (R96). -/
theorem exec_out_hasEffect (s : State) (p : Operand) : HasEffect s (exec (.out p)) := by
  have val : ∀ {u : State}, SeesAlike s u → u.val p = s.val p := fun hu => State.val_congr hu.engine p
  cases hv : s.val p with
  | error r =>
    exact hasEffect_of_raise r fun u hu => exec_of_val_error ((val hu).trans hv) (p2 := p) _ (by simp)
  | ok v =>
    refine ⟨⟨{ s.engine with outlog := s.engine.outlog ++ [v], ip := wrap64 (s.engine.ip.toInt + 2) }, 0, [v]⟩,
      Nat.zero_le _, fun u hu => ?_⟩
    rw [exec_out_of_val ((val hu).trans hv), hu.engine, State.sendDownstream_withEngine_eq_withEffect]

theorem exec_hasEffect {i : Instr} (hf : s.fetchInstr = .ok i) : HasEffect s (exec i) := by
  cases i with
  | inp p => exact exec_inp_hasEffect hf
  | out p => exact exec_out_hasEffect s p
  | add p1 p2 p3 => exact commit_hasEffect (storeResult_decidedByEngine s addWords p1 p2 p3 4)
  | mul p1 p2 p3 => exact commit_hasEffect (storeResult_decidedByEngine s mulWords p1 p2 p3 4)
  | lt p1 p2 p3 =>
    exact commit_hasEffect (storeResult_decidedByEngine s (fun a b => testResult (signedLess a b)) p1 p2 p3 4)
  | eq p1 p2 p3 =>
    exact commit_hasEffect (storeResult_decidedByEngine s (fun a b => testResult (wordsEqual a b)) p1 p2 p3 4)
  | jt p1 p2 => exact commit_hasEffect (jumpWhen_decidedByEngine s nonZero p1 p2 3)
  | jf p1 p2 => exact commit_hasEffect (jumpWhen_decidedByEngine s (fun c => !nonZero c) p1 p2 3)
  | arb p => exact commit_hasEffect (adjustRb_decidedByEngine s p 2)
  | hlt =>
    exact hasEffect_of_withEngine { s.engine with run := .halted } fun u hu => by rw [exec_hlt, State.halt, hu.engine]

end

theorem stepActive_hasEffect (s : State) : HasEffect s State.stepActive := by
  cases hf : s.fetchInstr with
  | error r =>
    exact hasEffect_of_raise r fun u hu => State.stepActive_of_error ((State.fetchInstr_congr hu.engine).trans hf)
  | ok i =>
    obtain ⟨x, taken, h⟩ := exec_hasEffect hf
    refine ⟨x, taken, fun u hu => ?_⟩
    rw [State.stepActive_of_ok ((State.fetchInstr_congr hu.engine).trans hf), h u hu]

/-- A step has one effect, the same on every state that is like this one (R132, R135). -/
theorem State.stepActive_effect {s t : State} (h : s.stepActive = .next t) :
    ∃ x : StageEffect, x.taken ≤ s.inputQueue.length ∧ t = s.withEffect x ∧
      ∀ u : State, SeesAlike s u → u.stepActive = .next (u.withEffect x) := by
  obtain ⟨x, taken, effect⟩ := stepActive_hasEffect s
  rw [effect s (.refl s)] at h
  cases h
  exact ⟨x, taken, rfl, effect⟩

/-! An effect on a network, engine by engine and FIFO by FIFO. -/

theorem fifosAfter_get (f : PerStage (List Word)) (k j : Stage) (x : StageEffect) :
    (fifosAfter f k x).get j =
      if j = k.next then f.get j ++ x.sent else if j = k then (f.get j).drop x.taken else f.get j := by
  by_cases next : j = k.next
  · simp [fifosAfter, next]
  · by_cases self : j = k
    · simp [fifosAfter, PerStage.get_set, self, (Stage.next_ne k).symm]
    · simp [fifosAfter, PerStage.get_set, next, self]

/-- The effects of two stages on the FIFOs commute: a FIFO that one of them takes from and the other adds to holds what
is taken before either acts (R137). -/
theorem fifosAfter_comm (f : PerStage (List Word)) {i j : Stage} (hij : i ≠ j) {x y : StageEffect}
    (hx : x.taken ≤ (f.get i).length) (hy : y.taken ≤ (f.get j).length) :
    fifosAfter (fifosAfter f i x) j y = fifosAfter (fifosAfter f j y) i x := by
  have hn : i.next ≠ j.next := fun h => hij (Stage.next_inj h)
  refine PerStage.ext_get fun l => ?_
  simp only [fifosAfter_get]
  by_cases hi : l = i.next
  · subst hi
    by_cases next : i.next = j
    · subst next
      simp [List.drop_append_of_le_length hy, hn]
    · simp [hn, next]
  by_cases hj : l = j.next
  · subst hj
    by_cases next : j.next = i
    · subst next
      simp [List.drop_append_of_le_length hx, hn.symm]
    · simp [hi, next]
  by_cases own : l = i
  · subst own
    simp [hi, hj, hij]
  · simp [hi, hj, own]

theorem System.after_comm {st : PerStage Engine} {f : PerStage (List Word)} {i j : Stage} (hij : i ≠ j)
    {x y : StageEffect} (hx : x.taken ≤ (f.get i).length) (hy : y.taken ≤ (f.get j).length) :
    ((System.network st f).after i x).after j y = ((System.network st f).after j y).after i x := by
  simp only [System.after, fifosAfter_comm f hij hx hy, PerStage.set_comm st _ _ hij]

end Sys2Proof.Machine
end

section
/-! Isolation (R132, R135, R137): a stage sees its engine, its FIFO and whether that is closed, and no other stage's
step takes an enabled step away from it. -/

namespace Sys2Proof.Machine

/-- Two states that are alike to the next step are both Blocked or neither is (R86). -/
theorem SeesAlike.blocked_eq {s u : State} (h : SeesAlike s u) : u.blocked = s.blocked := by
  rw [Bool.eq_iff_iff, State.blocked_iff, State.blocked_iff, State.fetchInstr_congr h.engine]
  simp only [State.target_congr h.engine]
  refine exists₂_congr fun p t => and_congr_right fun hf => and_congr_right fun ht => ?_
  have asks : s.asksPort := ⟨p, t, hf, ht⟩
  rw [← List.head?_eq_none_iff, ← List.head?_eq_none_iff, h.head asks]
  exact and_congr_right fun empty => by rw [h.closed asks (List.head?_eq_none_iff.mp empty)]

theorem SeesAlike.enabled_eq {s u : State} {k : Stage} (h : SeesAlike (s.from k) (u.from k)) :
    u.enabled k = s.enabled k := by
  have engine : u.engineAt k = s.engineAt k := h.engine
  rw [State.enabled, State.enabled, engine, h.blocked_eq]

/-- A stage sees its own engine, its own FIFO and whether that is closed. -/
theorem seesAlike_of_network {s u : State} {st su : PerStage Engine} {f fu : PerStage (List Word)} {k : Stage}
    (hs : s.system = .network st f) (hu : u.system = .network su fu) (engine : st.get k = su.get k)
    (queue : f.get k = fu.get k) (closed : fifoClosed st k = fifoClosed su k) : SeesAlike (s.from k) (u.from k) where
  engine := by rw [State.from_engine, State.from_engine, State.engineAt_network hs, State.engineAt_network hu, engine]
  head _ := by rw [State.from_inputQueue hs, State.from_inputQueue hu, queue]
  closed _ _ := by rw [State.from_inputClosed hs, State.from_inputClosed hu, closed]

/-- Settles O58: both networks see alike at stage `k`, so its step has the same effect on both. -/
theorem stageSeesOnlyItsOwnInputs : Obligations.StageSeesOnlyItsOwnInputs := by
  unfold Obligations.StageSeesOnlyItsOwnInputs
  intro s u s' u' st su f fu k hs hu engine queue closed hstep hstep'
  have alike := seesAlike_of_network hs hu engine queue closed
  obtain ⟨x, -, rfl, effect⟩ := State.stepActive_effect hstep
  rw [effect _ alike] at hstep'
  cases hstep'
  have after : ((s.from k).withEffect x).system = .network (st.set k x.engine) (fifosAfter f k x) := by
    simp [System.after, hs]
  have after' : ((u.from k).withEffect x).system = .network (su.set k x.engine) (fifosAfter fu k x) := by
    simp [System.after, hu]
  refine ⟨alike.enabled_eq.symm, ?_, _, _, _, _, x.sent, after, after', ?_, ?_, ?_⟩
  · rw [State.engineAt_network after, State.engineAt_network after', PerStage.get_set_self, PerStage.get_set_self]
  · simp [fifosAfter_get, (Stage.next_ne k).symm, queue]
  · simp [fifosAfter_get]
  · simp [fifosAfter_get]

/-- What a Running stage `i` does, an enabled stage `j` does not see: `i` changes what `j` reads only by adding to the
back of its FIFO, and where that is empty and `j` asks, `j` is enabled because its producer, thus not `i`, has
terminated (R127, R137). -/
theorem seesAlike_after_other {s : State} {st : PerStage Engine} {f : PerStage (List Word)} {i j : Stage}
    (hs : s.system = .network st f) (hij : i ≠ j) (hi : s.enabled i = true) (hj : s.enabled j = true)
    (x : StageEffect) : SeesAlike (s.from j) (((s.from i).withEffect x).from j) := by
  have after : ((s.from i).withEffect x).system = .network (st.set i x.engine) (fifosAfter f i x) := by
    simp [System.after, hs]
  obtain ⟨running, -⟩ := (State.enabled_network hs i).mp hi
  obtain ⟨-, notBlocked⟩ := (State.enabled_network hs j).mp hj
  have producerEnded : (s.from j).asksPort → f.get j = [] → fifoClosed st j = true := by
    rintro ⟨p, t, hf, ht⟩ empty
    by_contra opened
    rw [Bool.eq_false_iff, ne_eq, State.blocked_iff, State.from_inputQueue hs, State.from_inputClosed hs] at notBlocked
    exact notBlocked ⟨p, t, hf, ht, empty, Bool.eq_false_iff.mpr opened⟩
  have notProducer : (s.from j).asksPort → f.get j = [] → j.prev ≠ i := by
    rintro asks empty rfl
    have opened : fifoClosed st j = false := fifoClosed_eq_false.mpr running
    rw [producerEnded asks empty] at opened
    cases opened
  refine ⟨?_, fun asks => ?_, fun asks empty => ?_⟩
  · rw [State.from_engine, State.from_engine, State.engineAt_network hs, State.engineAt_network after,
      PerStage.get_set_ne _ _ hij.symm]
  · rw [State.from_inputQueue hs, State.from_inputQueue after, fifosAfter_get, if_neg hij.symm]
    split
    · next fed =>
      have nonempty : f.get j ≠ [] := fun empty => notProducer asks empty (by rw [fed, Stage.prev_next])
      rw [List.head?_append_of_ne_nil _ nonempty]
    · rfl
  · rw [State.from_inputQueue hs] at empty
    rw [State.from_inputClosed hs, State.from_inputClosed after, fifoClosed, fifoClosed,
      PerStage.get_set_ne _ _ (notProducer asks empty)]

theorem State.isNetwork_iff {s : State} : s.isNetwork = true ↔ ∃ st f, s.system = .network st f := by
  cases h : s.system <;> simp [State.isNetwork, h]

/-- Settles O59: neither stage sees what the other does, so each has its effect in both orders, and the effects of two
stages commute. -/
theorem enabledStagesCommute : Obligations.EnabledStagesCommute := by
  unfold Obligations.EnabledStagesCommute
  intro s si sj i j network hij hi hj stepI stepJ
  obtain ⟨st, f, hs⟩ := State.isNetwork_iff.mp network
  obtain ⟨x, takenI, rfl, effectI⟩ := State.stepActive_effect stepI
  obtain ⟨y, takenJ, rfl, effectJ⟩ := State.stepActive_effect stepJ
  have seesJ := seesAlike_after_other hs hij hi hj x
  have seesI := seesAlike_after_other hs hij.symm hj hi y
  rw [State.from_inputQueue hs] at takenI takenJ
  refine ⟨seesJ.enabled_eq.trans hj, seesI.enabled_eq.trans hi, _, _, effectJ _ seesJ, effectI _ seesI, ?_⟩
  simp [hs, System.after_comm hij takenI takenJ]

end Sys2Proof.Machine
end

section
/-! Runs of a network under explicit schedules (R134, R137): the step of an enabled stage can be moved to the front of
any run that ends with no enabled step, so two such runs are permutations of each other and end alike. -/

namespace Sys2Proof.Machine

theorem State.runStages_cons_iff {s t : State} {k : Stage} {ks : List Stage} :
    s.runStages (k :: ks) = some t ↔
      ∃ u, s.enabled k = true ∧ (s.from k).stepActive = .next u ∧ u.runStages ks = some t := by
  rw [State.runStages]
  cases hk : s.enabled k with
  | false => simp
  | true =>
    obtain ⟨u, hu⟩ := (s.from k).stepActive_answers
    simp [hu]

/-- A step does not look at the model's own fields (log 4). -/
theorem stepActive_congr {s s' u : State} {k : Stage} (h : s'.system = s.system)
    (hstep : (s.from k).stepActive = .next u) :
    ∃ u', (s'.from k).stepActive = .next u' ∧ u'.system = u.system := by
  have alike : SeesAlike (s.from k) (s'.from k) := by
    constructor <;> simp [State.engine, State.engineAt, State.inputQueue, State.inputClosed, h]
  obtain ⟨x, -, rfl, effect⟩ := State.stepActive_effect hstep
  exact ⟨_, effect _ alike, by simp [h]⟩

theorem State.runStages_congr {s s' t : State} {ks : List Stage} (h : s'.system = s.system)
    (run : s.runStages ks = some t) : ∃ t', s'.runStages ks = some t' ∧ t'.system = t.system := by
  induction ks generalizing s s' with
  | nil =>
    cases run
    exact ⟨s', rfl, h⟩
  | cons k ks ih =>
    obtain ⟨u, enabled, hstep, rest⟩ := State.runStages_cons_iff.mp run
    obtain ⟨u', hstep', hu⟩ := stepActive_congr h hstep
    obtain ⟨t', run', ht⟩ := ih hu rest
    exact ⟨t', State.runStages_cons_iff.mpr ⟨u', by rw [State.enabled_congr h, enabled], hstep', run'⟩, ht⟩

theorem State.stepActive_isNetwork {s t : State} (h : s.stepActive = .next t) : t.isNetwork = s.isNetwork := by
  obtain ⟨x, -, rfl, -⟩ := State.stepActive_effect h
  cases hs : s.system <;> simp [State.isNetwork, System.after, hs]

/-- A stage that is enabled takes a step in every run that ends with no enabled step, and that step can be taken first
(R137). -/
theorem runStages_enabled_first {s t u : State} {ks : List Stage} {i : Stage} (network : s.isNetwork = true)
    (run : s.runStages ks = some t) (complete : ∀ k, t.enabled k = false) (enabled : s.enabled i = true)
    (hstep : (s.from i).stepActive = .next u) :
    i ∈ ks ∧ ∃ t', u.runStages (ks.erase i) = some t' ∧ t'.system = t.system := by
  induction ks generalizing s u with
  | nil =>
    cases run
    rw [complete i] at enabled
    cases enabled
  | cons k ks ih =>
    obtain ⟨v, enabledK, stepK, rest⟩ := State.runStages_cons_iff.mp run
    by_cases hik : i = k
    · subst hik
      rw [stepK] at hstep
      cases hstep
      exact ⟨List.mem_cons_self, t, by simpa using rest, rfl⟩
    · obtain ⟨enabledK', enabledI, w, w', stepK', stepI, hw⟩ :=
        enabledStagesCommute s u v i k network hik enabled enabledK hstep stepK
      have networkV : v.isNetwork = true := by rw [State.stepActive_isNetwork stepK]; exact network
      obtain ⟨mem, t', run', ht'⟩ := ih networkV rest enabledI stepI
      obtain ⟨t'', run'', ht''⟩ := State.runStages_congr hw run'
      refine ⟨List.mem_cons_of_mem k mem, t'', ?_, ht''.trans ht'⟩
      rw [List.erase_cons_tail (by simpa using Ne.symm hik)]
      exact State.runStages_cons_iff.mpr ⟨w, enabledK', stepK', run''⟩

/-- Two runs of a network that end with no enabled step are permutations of each other and end alike (R137). -/
theorem runStages_confluent {s t t' : State} {ks ks' : List Stage} (network : s.isNetwork = true)
    (run : s.runStages ks = some t) (run' : s.runStages ks' = some t') (complete : ∀ k, t.enabled k = false)
    (complete' : ∀ k, t'.enabled k = false) : t.system = t'.system ∧ ks.Perm ks' := by
  induction ks generalizing s t' ks' with
  | nil =>
    cases run
    cases ks' with
    | nil =>
      cases run'
      exact ⟨rfl, .refl _⟩
    | cons k ks' =>
      obtain ⟨u, enabled, -⟩ := State.runStages_cons_iff.mp run'
      rw [complete k] at enabled
      cases enabled
  | cons k ks ih =>
    obtain ⟨u, enabled, hstep, rest⟩ := State.runStages_cons_iff.mp run
    obtain ⟨mem, t'', rest', ht⟩ := runStages_enabled_first network run' complete' enabled hstep
    have networkU : u.isNetwork = true := by rw [State.stepActive_isNetwork hstep]; exact network
    have complete'' : ∀ j, t''.enabled j = false := fun j => by rw [State.enabled_congr ht, complete' j]
    obtain ⟨same, perm⟩ := ih networkU rest rest' complete''
    exact ⟨same.trans ht, (perm.cons k).trans (List.perm_cons_erase mem).symm⟩

/-- Settles O60: the runs end alike, and permutations count every stage alike. -/
theorem resultIsIndependentOfTheSchedule : Obligations.ResultIsIndependentOfTheSchedule := by
  unfold Obligations.ResultIsIndependentOfTheSchedule
  intro s t t' ks ks' network run run' complete complete'
  obtain ⟨same, perm⟩ := runStages_confluent network run run' complete complete'
  exact ⟨same, fun k => perm.count_eq k⟩

end Sys2Proof.Machine
end

section
/-! The network as a whole (R127, R129, R132, R134, R136): which stage steps, what its step leaves alone, and how the
network ends or gets stuck. -/

namespace Sys2Proof.Machine

/-! Selecting. -/

theorem mem_ringFrom (j k : Stage) : k ∈ ringFrom j := by cases j <;> cases k <;> decide

theorem State.selectStage_network {s : State} (network : s.isNetwork = true) :
    s.selectStage = (ringFrom s.proposed).find? s.enabled := by
  obtain ⟨st, f, hs⟩ := State.isNetwork_iff.mp network
  rw [State.selectStage, hs]

/-- A network has no step exactly when no stage has (R134). -/
theorem State.selectStage_eq_none_iff {s : State} (network : s.isNetwork = true) :
    s.selectStage = none ↔ ∀ k, s.enabled k = false := by
  rw [State.selectStage_network network, List.find?_eq_none]
  simp [mem_ringFrom]

/-- Settles O19: a proposed stage stands first in its ring, and every stage stands in every ring. -/
theorem anyEnabledStageMayStepNext : Obligations.AnyEnabledStageMayStepNext := by
  unfold Obligations.AnyEnabledStageMayStepNext
  intro s network
  refine ⟨fun k rest enabled => ?_, fun k => State.selectStage_enabled, State.selectStage_eq_none_iff network⟩
  have enabled' : ({ s with schedule := k :: rest } : State).enabled k = true :=
    (State.enabled_congr (s := { s with schedule := k :: rest }) (u := s) rfl k).trans enabled
  exact (State.selectStage_network (s := { s with schedule := k :: rest }) network).trans
    (List.find?_cons_of_pos enabled')

/-! Stepping. -/

/-- A step of a network is the effect of the selected stage on it. -/
theorem step_network {s t : State} {st : PerStage Engine} {f : PerStage (List Word)} {k : Stage}
    (hs : s.system = .network st f) (selected : s.selectStage = some k) (h : step s = .next t) :
    ∃ x, t.system = .network (st.set k x.engine) (fifosAfter f k x) := by
  rw [step_of_selectStage selected] at h
  obtain ⟨x, -, rfl, -⟩ := State.stepActive_effect h
  exact ⟨x, by simp [hs, State.turnTo_active_network hs, System.after]⟩

/-- Settles O53: the effect of the selected stage on the other engines is none. -/
theorem stagesArePrivate : Obligations.StagesArePrivate := by
  unfold Obligations.StagesArePrivate
  intro s t k j network selected hstep hjk
  obtain ⟨st, f, hs⟩ := State.isNetwork_iff.mp network
  obtain ⟨x, ht⟩ := step_network hs selected hstep
  rw [State.engineAt_network hs, State.engineAt_network ht, PerStage.get_set_ne _ _ hjk]

theorem fifoClosed_iff {st : PerStage Engine} {k : Stage} :
    fifoClosed st k = true ↔ (st.get k.prev).run ≠ .running := by
  simp [fifoClosed, Engine.terminated]

/-- Settles O55: a producer that is not Running does not change any more. -/
theorem closedIsTheProducersEndAndStays : Obligations.ClosedIsTheProducersEndAndStays := by
  unfold Obligations.ClosedIsTheProducersEndAndStays
  intro s t st st' f f' k hs hstep ht
  refine ⟨fifoClosed_iff, fun closed => ?_⟩
  have ended : (s.engineAt k.prev).run ≠ .running := by
    rw [State.engineAt_network hs]
    exact fifoClosed_iff.mp closed
  have same := terminatedEngineNeverChanges s t k.prev ended hstep
  rw [fifoClosed_iff, ← State.engineAt_network ht, same]
  exact ended

/-! The end of the network. -/

/-- What holds at every stage, written out as the model writes it. -/
theorem PerStage.forall_get_iff {α : Type} {P : α → Prop} {r : PerStage α} :
    (∀ k, P (r.get k)) ↔ P r.s0 ∧ P r.s1 ∧ P r.s2 ∧ P r.s3 ∧ P r.s4 := by
  constructor
  · intro h
    exact ⟨h .s0, h .s1, h .s2, h .s3, h .s4⟩
  · rintro ⟨h0, h1, h2, h3, h4⟩ k
    cases k <;> assumption

section
variable {s : State} {st : PerStage Engine} {f : PerStage (List Word)} (hs : s.system = .network st f)
include hs

theorem State.networkDone_iff : s.networkDone = true ↔ (st.get .s4).run = .halted := by
  simp [State.networkDone, hs, PerStage.get]

theorem State.networkClean_iff : s.networkClean = true ↔ ∀ k, (st.get k).run = .halted := by
  simp [State.networkClean, hs, PerStage.forall_get_iff (P := fun e : Engine => e.run = .halted), and_assoc]

theorem State.networkResult_eq :
    s.networkResult = if s.networkDone then (st.get .s4).outlog.getLast? else none := by
  simp [State.networkResult, hs, PerStage.get]

theorem State.safe_iff : s.safe = true ↔ ∀ k, (st.get k).run ≠ .faulted := by
  simp [State.safe, hs, PerStage.forall_get_iff (P := fun e : Engine => e.run ≠ .faulted), and_assoc]

/-- A Running stage without an enabled step waits on its empty FIFO for a producer that is Running (R86, R127). -/
theorem State.waits_of_not_enabled {k : Stage} (running : (st.get k).run = .running) (idle : s.enabled k = false) :
    (s.from k).blocked = true ∧ f.get k = [] ∧ (st.get k.prev).run = .running := by
  have blocked : (s.from k).blocked = true := by
    by_contra notBlocked
    have enabled := (State.enabled_network hs k).mpr ⟨running, Bool.eq_false_iff.mpr notBlocked⟩
    rw [idle] at enabled
    cases enabled
  obtain ⟨p, t, -, -, empty, opened⟩ := State.blocked_iff.mp blocked
  rw [State.from_inputQueue hs] at empty
  rw [State.from_inputClosed hs, fifoClosed_eq_false] at opened
  exact ⟨blocked, empty, opened⟩

theorem State.stuck_iff : s.stuck = true ↔ s.selectStage = none ∧ (st.get .s4).run = .running := by
  simp [State.stuck, hs, PerStage.get]

end

/-- What holds at `S[4]` and of the producer wherever it holds, holds of every stage: the ring closes. -/
theorem Stage.forall_of_prev {P : Stage → Prop} (last : P .s4) (producer : ∀ k, P k → P k.prev) : ∀ k, P k := by
  have h3 : P .s3 := producer .s4 last
  have h2 : P .s2 := producer .s3 h3
  have h1 : P .s1 := producer .s2 h2
  have h0 : P .s0 := producer .s1 h1
  intro k
  cases k <;> assumption

/-- Settles O56: a stage that waits has a Running producer, which then waits as well, and so on around the ring. -/
theorem stuckNetworkStaysWithoutResult : Obligations.StuckNetworkStaysWithoutResult := by
  unfold Obligations.StuckNetworkStaysWithoutResult
  intro s st f hs stuck
  obtain ⟨unselected, last⟩ := (State.stuck_iff hs).mp stuck
  have idle := (State.selectStage_eq_none_iff (State.isNetwork_iff.mpr ⟨st, f, hs⟩)).mp unselected
  have running : ∀ k, (st.get k).run = .running := Stage.forall_of_prev last fun k hk =>
    (State.waits_of_not_enabled hs hk (idle k)).2.2
  have notDone : s.networkDone = false := by
    rw [Bool.eq_false_iff, ne_eq, State.networkDone_iff hs, last]
    simp
  have safe : s.safe = true := (State.safe_iff hs).mpr fun k => by simp [running k]
  refine ⟨fun k => ?_, (noEnabledStepKeepsTheState s).1 unselected, safe, notDone, ?_⟩
  · obtain ⟨blocked, empty, -⟩ := State.waits_of_not_enabled hs (running k) (idle k)
    exact ⟨running k, empty, blocked⟩
  · simp [State.networkResult_eq hs, notDone]

/-- Settles O57: `NetworkDone` and the result are read from `S[4]`, which does not change once it is Halted. -/
theorem networkResultIsSettledWhenDone : Obligations.NetworkResultIsSettledWhenDone := by
  unfold Obligations.NetworkResultIsSettledWhenDone
  intro s t st f hs hstep
  refine ⟨State.networkDone_iff hs, State.networkClean_iff hs, fun done => ?_, fun notDone => ?_, fun done => ?_⟩
  · simp [State.networkResult_eq hs, done]
  · simp [State.networkResult_eq hs, notDone]
  · obtain ⟨st', f', ht, -⟩ := fifosKeepOrderAndLoseNothing s t st f hs hstep
    have halted := (State.networkDone_iff hs).mp done
    have ended : (s.engineAt .s4).run ≠ .running := by simp [State.engineAt_network hs, halted]
    have same := terminatedEngineNeverChanges s t .s4 ended hstep
    have last : st'.get .s4 = st.get .s4 := by rwa [State.engineAt_network hs, State.engineAt_network ht] at same
    have done' : t.networkDone = true := (State.networkDone_iff ht).mpr (by rw [last, halted])
    exact ⟨done', congrArg Engine.outlog same, by
      rw [State.networkResult_eq hs, State.networkResult_eq ht, done, done', last]⟩

end Sys2Proof.Machine
end

section
/-! The operations of the two ports (R121, R122, R124, R125), by the kind of system. -/

namespace Sys2Proof.Machine

/-- Settles O37: the input of a Buffered port is `inq`, which is closed from the start, and nothing is sent on. -/
theorem bufferedPortOperations : Obligations.BufferedPortOperations := by
  unfold Obligations.BufferedPortOperations
  intro s e inq hs
  have queue : s.inputQueue = inq := by simp [State.inputQueue, hs]
  have closed : s.inputClosed = true := by simp [State.inputClosed, hs]
  refine ⟨fun empty => ?_, fun w rest head => ?_, fun v => ?_⟩
  · rw [State.nextInput_of_nil (queue.trans empty), closed, if_pos rfl]
  · rw [State.nextInput_of_cons (queue.trans head), State.withInputQueue, hs]
  · have engine : s.engine = e := State.engineAt_single hs s.active
    rw [State.emitOutput, State.appendLog, ← State.sendDownstream_withEngine,
      State.sendDownstream_withEngine_single hs, engine]

/-- Settles O38: the input of a Channel port is the stage's own FIFO, and what it emits goes to the next stage's. -/
theorem channelPortOperations : Obligations.ChannelPortOperations := by
  unfold Obligations.ChannelPortOperations
  intro s st f hs
  have queue : s.inputQueue = f.get s.active := State.from_inputQueue hs s.active
  have closed : s.inputClosed = fifoClosed st s.active := State.from_inputClosed hs s.active
  refine ⟨fun w rest head => ?_, fun empty ended => ?_, fun empty opened => ?_, fun v => ?_⟩
  · rw [State.nextInput_of_cons (queue.trans head), State.withInputQueue, hs]
  · rw [State.nextInput_of_nil (queue.trans empty), closed, ended, if_pos rfl]
  · rw [State.nextInput_of_nil (queue.trans empty), closed, opened]
    rfl
  · have engine : s.engine = st.get s.active := State.engineAt_network hs s.active
    rw [State.emitOutput, State.appendLog, ← State.sendDownstream_withEngine,
      State.sendDownstream_withEngine_network hs, engine]

end Sys2Proof.Machine
end

section
/-! Faults (R88, R146, R149, R150): what a fault entry leaves behind, that a step which ends Faulted is one, and which
fault a storing instruction reports. -/

namespace Sys2Proof.Machine

/-! Precision. -/

/-- Of what executing an instruction leads to, only the fault entry is Faulted (R146). -/
theorem ExecCase.eq_raise_of_faulted {i : Instr} {s t : State} (h : ExecCase i s t) (running : s.engine.run = .running)
    (faulted : t.engine.run = .faulted) : ∃ r, r ≠ .unwritten ∧ t = s.raise r := by
  cases h with
  | fault r hr => exact ⟨r, hr, rfl⟩
  | store | input | blocked | output | jump | fallThrough | adjust | halt => simp [running] at faulted

/-- Settles O41: the selected stage began its step Running, so its engine is the one that executed, and only a fault entry
leaves it Faulted. -/
theorem faultsArePrecise : Obligations.FaultsArePrecise := by
  unfold Obligations.FaultsArePrecise
  intro s t k selected hstep faulted
  have running := State.selectStage_running selected
  rcases step_engineAt_cases hstep k with same | ⟨j, i, hj, hi, -, ht⟩
  · rw [same, running] at faulted
    cases faulted
  · obtain rfl : k = j := Option.some.inj (selected.symm.trans hj)
    exact hi.eq_raise_of_faulted ((congrArg Engine.run (s.turnTo_engine k)).trans running) (ht ▸ faulted)

/-! The order of a storing instruction's faults. -/

section
variable {s : State} {p1 : Operand} {r : FaultRecord}

/-- The first source is read before anything else (R88). -/
theorem State.storeResult_of_val_error (h1 : s.val p1 = .error r) (f : Word → Word → Word) (p2 p3 : Operand)
    (n : Nat) : s.storeResult f p1 p2 p3 n = .error r := by
  rw [State.storeResult, h1]
  rfl

/-- The second source is read before the target is resolved (R88). -/
theorem State.storeResult_of_second_val_error {p2 : Operand} {a : Word} (h1 : s.val p1 = .ok a)
    (h2 : s.val p2 = .error r) (f : Word → Word → Word) (p3 : Operand) (n : Nat) :
    s.storeResult f p1 p2 p3 n = .error r := by
  rw [State.storeResult, h1, h2]
  rfl

/-- A fault that does not depend on the operation is taken by all four storing instructions. -/
theorem exec_storing_of_storeResult_error {i : Instr} {p2 p3 : Operand}
    (hi : i ∈ [Instr.add p1 p2 p3, .mul p1 p2 p3, .lt p1 p2 p3, .eq p1 p2 p3])
    (h : ∀ f, s.storeResult f p1 p2 p3 4 = .error r) : exec i s = .next (s.raise r) := by
  obtain ⟨f, hf⟩ := exec_storing hi s
  rw [hf, h f, State.commit]

end

/-- Settles O42: `storeResult` reads p1, then p2, then resolves p3, and stops at the first fault. -/
theorem storingFaultsInOperandOrder : Obligations.StoringFaultsInOperandOrder := by
  unfold Obligations.StoringFaultsInOperandOrder
  intro p1 p2 p3 s r i hi
  refine ⟨fun h1 => ?_, fun h1 h2 => ?_, exec_storing_of_target_error hi⟩
  · exact exec_storing_of_storeResult_error hi fun f => State.storeResult_of_val_error h1 f p2 p3 4
  · obtain ⟨a, ha⟩ := State.readable_val h1
    exact exec_storing_of_storeResult_error hi fun f => State.storeResult_of_second_val_error ha h2 f p3 4

/-! The fault entry. -/

/-- A stage that has terminated has no enabled step (R24). -/
theorem State.enabled_eq_false_of_ended {s : State} {k : Stage} (ended : (s.engineAt k).run ≠ .running) :
    s.enabled k = false := by
  simp [State.enabled, Engine.terminated, ended]

/-- The stage that takes a fault is Faulted and keeps all else (R146). -/
theorem State.raise_engineAt_active (s : State) (r : FaultRecord) :
    (s.raise r).engineAt s.active = { s.engine with run := .faulted, record := r } :=
  s.withEngineAt_engineAt s.active _

/-- Settles O39: a fault entry replaces the active engine by its Faulted copy, which ends it and closes the FIFO it
feeds. -/
theorem faultEntryChangesOnlyTheRecord : Obligations.FaultEntryChangesOnlyTheRecord := by
  unfold Obligations.FaultEntryChangesOnlyTheRecord
  intro s r
  have engine := s.raise_engine r
  have readable : (s.raise r).engine.faultRecord? = some r := by
    rw [faultRecordIsReadableOnlyWhenFaulted.1, engine]
    exact ⟨rfl, rfl⟩
  have idle : (s.raise r).enabled s.active = false :=
    State.enabled_eq_false_of_ended (by simp [State.raise_engineAt_active])
  refine ⟨engine, readable, idle, s.raise_active r, s.withEngine_schedule _, s.withEngine_turn _, ?single, ?network⟩
  case single =>
    intro e q hs
    rw [engine]
    exact State.withEngine_system_single hs _
  case network =>
    intro st f hs
    refine ⟨_, State.withEngine_system_network hs _, fun j hj => PerStage.get_set_ne st _ hj, ?_⟩
    simp [fifoClosed_iff]

end Sys2Proof.Machine
end
